-- ==== Sys2Proof/Word.lean ====
section
/-! DEFINITION. The byte, the one word the CORE computes with (spec/00_scope.md R8, R10). -/

namespace Sys2Proof

/-- A memory cell and a byte of the program store: 8 bits, unsigned (R8 `BYTE`, R10). -/
abbrev Byte := BitVec 8

/-- A return address as the call stack holds it: 16 bits (R9). -/
abbrev ReturnAddress := BitVec 16

end Sys2Proof
end

