-- ==== Sys2Proof/Config.lean ====
section
/-! DEFINITION. The fixed numbers of the CORE (spec/00_scope.md R8, spec/20_memory.md R67), the ASCII
bytes its rules name (R13), and the free values: what the spec leaves undefined, opaque constants with
no body. -/

namespace Sys2Proof.Config

/-- Size of the register window, and the least legal MEM_SIZE (R8, R21). -/
@[simp] abbrev windowSize : Nat := 16

/-- The largest legal MEM_SIZE (R8, R292). -/
@[simp] abbrev maxMemSize : Nat := 65536

/-- The largest legal PROG_LEN (R8, R292). -/
@[simp] abbrev maxProgLen : Nat := 65535

/-- The address of the Status Register `SR` (R25, R67). -/
@[simp] abbrev srAddr : Nat := 6

/-- The address of the Instruction Register `IR` (R27, R67). -/
@[simp] abbrev irAddr : Nat := 7

/-- What an unlisted address of the data memory reads as: the reset contents (R41). -/
@[simp] abbrev unlistedByte : Byte := 0

/-! ### ASCII bytes (R13)
The spec takes them from the ASCII table (93_implementation_defined G1, G2). PRESUMED, log entry 13. -/

@[simp] abbrev lf : Byte := 0x0A
@[simp] abbrev space : Byte := 0x20
@[simp] abbrev tab : Byte := 0x09
@[simp] abbrev star : Byte := 0x2A
@[simp] abbrev colon : Byte := 0x3A
@[simp] abbrev openBracket : Byte := 0x5B
@[simp] abbrev closeBracket : Byte := 0x5D

/-- The whitespace set WS (R13). -/
@[simp] abbrev whitespace : List Byte := [0x09, 0x0A, 0x0B, 0x0C, 0x0D, 0x20]

/-! ### Free values
Nothing constrains them. The argument is the occasion: 0 for a rejected launch (R292, log entry 8),
1 for an asserted `rst` (R291, log entry 9). -/

opaque undefinedMemory : Nat → List (Nat × BitVec 8)
opaque undefinedPc : Nat → Nat
opaque undefinedHalted : Nat → Bool
opaque undefinedDp : Nat → Nat
opaque undefinedSp : Nat → Nat
opaque undefinedLabels : Nat → List (List (BitVec 8) × Nat)

end Sys2Proof.Config
end

