-- ==== Sys2Proof/Syntax.lean ====
section
/-! DEFINITION. The instructions of the CORE: one constructor per row of spec/opcode_table.json
(spec/30_encoding.md R80), with the label operand of `J` and `C` (R83). -/

namespace Sys2Proof

/-- The label operand of a `J` or `C` as it stands in the program text (R83): the spaces and tabs that
separate it from the opcode, whether one leading `*` is stripped, and the name. -/
structure LabelOperand where
  /-- The spaces and tabs between the opcode and the name. -/
  gap : List Byte
  /-- Whether a `*` sigil stands before the name; it is no part of the name. -/
  sigil : Bool
  /-- The label name that is looked up. -/
  name : List Byte
deriving DecidableEq, Repr

/-- The instruction set, in the order of R80. -/
inductive Instr where
  /-- `>` INCP (R120) -/
  | incp
  /-- `<` DECP (R121) -/
  | decp
  /-- `+` INC (R122) -/
  | inc
  /-- `-` DEC (R123) -/
  | dec
  /-- `.` OUT (R143) -/
  | out
  /-- `,` IN (R144) -/
  | inp
  /-- `[` LOOPOPEN (R162) -/
  | loopOpen
  /-- `]` LOOPCLOSE (R163) -/
  | loopClose
  /-- `0` ZERO (R124) -/
  | zero
  /-- `&` AND (R184) -/
  | and
  /-- `|` OR (R185) -/
  | or
  /-- `^` XOR (R186) -/
  | xor
  /-- `~` NOT (R187) -/
  | not
  /-- `#` SHR (R188) -/
  | shr
  /-- `@` SHL (R189) -/
  | shl
  /-- `A` ADD (R190) -/
  | add
  /-- `M` MUL (R191) -/
  | mul
  /-- `S` SUB (R192) -/
  | sub
  /-- `D` DIV (R193) -/
  | div
  /-- `%` MOD (R194) -/
  | mod
  /-- `!` NOTB (R195) -/
  | notb
  /-- `J` JMP with its label operand (R240) -/
  | jmp (label : LabelOperand)
  /-- `C` CALL with its label operand (R241) -/
  | call (label : LabelOperand)
  /-- `R` RET (R242) -/
  | ret
  /-- `;` HALT (R105) -/
  | halt
  /-- NOP: any byte the table does not list (R106); the byte itself is kept, since it goes to `IR`. -/
  | nop (byte : Byte)
deriving DecidableEq, Repr

end Sys2Proof
end

