-- ==== Sys2Proof/Decode.lean ====
section
/-! DEFINITION. Decoding of the program text (spec/30_encoding.md R80 to R86), total on any bytes, and the
encoder written from the same table. -/

namespace Sys2Proof

/-- Why no instruction can be decoded: there is no byte (R100). No byte value is illegal (R86). -/
inductive DecodeError where
  | endOfText
deriving DecidableEq, Repr

/-- A space or tab: what may separate `J` or `C` from its name (R83). -/
def isBlank (b : Byte) : Bool := b == Config.space || b == Config.tab

/-- A byte of WS (R13): it ends a label name (R83) and is trimmed from a declaration (R232). -/
def isWs (b : Byte) : Bool := Config.whitespace.contains b

/-- The one leading `*` of a label operand, stripped (R83). -/
def stripSigil : List Byte → Bool × List Byte
  | [] => (false, [])
  | b :: t => if b = Config.star then (true, t) else (false, b :: t)

/-- `ParseLabelOperand` of R83, on the bytes after the opcode: the operand, and the bytes from `end` on. -/
def parseLabelOperand (bytes : List Byte) : LabelOperand × List Byte :=
  let afterGap := bytes.dropWhile isBlank
  let (sigil, afterSigil) := stripSigil afterGap
  (⟨bytes.takeWhile isBlank, sigil, afterSigil.takeWhile (!isWs ·)⟩, afterSigil.dropWhile (!isWs ·))

/-- The format-B rows of R80: the byte and the instruction it selects. -/
def formatB : List (Byte × Instr) :=
  [(0x3E, .incp), (0x3C, .decp), (0x2B, .inc), (0x2D, .dec), (0x2E, .out), (0x2C, .inp),
   (0x5B, .loopOpen), (0x5D, .loopClose), (0x30, .zero), (0x26, .and), (0x7C, .or), (0x5E, .xor),
   (0x7E, .not), (0x23, .shr), (0x40, .shl), (0x41, .add), (0x4D, .mul), (0x53, .sub), (0x44, .div),
   (0x25, .mod), (0x21, .notb), (0x52, .ret), (0x3B, .halt)]

/-- The opcode byte of JMP (R80, format L). -/
def jmpByte : Byte := 0x4A

/-- The opcode byte of CALL (R80, format L). -/
def callByte : Byte := 0x43

/-- The bytes R80 lists; every other byte is a no-op (R82, R86). -/
def listedBytes : List Byte := formatB.map Prod.fst ++ [jmpByte, callByte]

/-- The instruction an opcode byte selects, with the bytes after the instruction (R82): the whole byte is
compared with the table, and a byte equal to no listed value selects NOP. -/
def decodeOp (op : Byte) (rest : List Byte) : Instr × List Byte :=
  match formatB.lookup op with
  | some i => (i, rest)
  | none =>
    if op = jmpByte then
      let (l, after) := parseLabelOperand rest
      (.jmp l, after)
    else if op = callByte then
      let (l, after) := parseLabelOperand rest
      (.call l, after)
    else (.nop op, rest)

/-- The instruction at the head of a run of program text, and the text after it (R82, R83). -/
def decode : List Byte → Except DecodeError (Instr × List Byte)
  | [] => .error .endOfText
  | op :: rest => .ok (decodeOp op rest)

/-! ### The encoder -/

/-- The opcode byte of an instruction (R80). -/
def opcodeOf : Instr → Byte
  | .incp => 0x3E
  | .decp => 0x3C
  | .inc => 0x2B
  | .dec => 0x2D
  | .out => 0x2E
  | .inp => 0x2C
  | .loopOpen => 0x5B
  | .loopClose => 0x5D
  | .zero => 0x30
  | .and => 0x26
  | .or => 0x7C
  | .xor => 0x5E
  | .not => 0x7E
  | .shr => 0x23
  | .shl => 0x40
  | .add => 0x41
  | .mul => 0x4D
  | .sub => 0x53
  | .div => 0x44
  | .mod => 0x25
  | .notb => 0x21
  | .jmp _ => 0x4A
  | .call _ => 0x43
  | .ret => 0x52
  | .halt => 0x3B
  | .nop b => b

/-- The bytes of a label operand as they stand in the text (R81, R83). -/
def operandBytes (l : LabelOperand) : List Byte :=
  l.gap ++ (if l.sigil then [Config.star] else []) ++ l.name

/-- The bytes of an instruction (R81): the opcode byte, and for format L its operand. -/
def encode (i : Instr) : List Byte :=
  opcodeOf i :: match i with
    | .jmp l => operandBytes l
    | .call l => operandBytes l
    | _ => []

/-- The length of an instruction in bytes (R84): `end − p` for format L, 1 for every other. -/
def lengthOf (i : Instr) : Nat := (encode i).length

/-! ### The opcode table's words -/

/-- The bytes of a table word of `nbits` bits, its least significant byte first. -/
def wordBytes (nbits w : Nat) : List Byte :=
  (List.range ((nbits + 7) / 8)).map fun k => BitVec.ofNat 8 (w >>> (8 * k))

/-- What the decoder reads from a word of spec/opcode_table.json. The program text ends after the word's
bytes, so a `J` or `C` of the table has the empty operand (log entry 14). -/
def decodeTableWord (nbits w : Nat) : Option Instr :=
  match decode (wordBytes nbits w) with
  | .ok (i, _) => some i
  | .error _ => none

end Sys2Proof
end

