-- ==== Sys2Proof/Machine/State.lean ====
section
/-! DEFINITION. The state of the CORE (spec/10_state.md R20), plain data, and the state after reset (R41). -/

namespace Sys2Proof.Machine

/-- The data memory `M` (R21): (address, byte) pairs, addresses strictly rising, no byte equal to what an
unlisted address reads as. The register window is its first 16 addresses (R23). -/
abbrev Memory := List Host.Cell

/-- The label table `LT` (R37): label names, each once, with their addresses. -/
abbrev LabelTable := List (List Byte × Nat)

/-- LABEL_CAPACITY (R8): a positive integer, or `none` for unbounded. -/
abbrev LabelCapacity := Option PNat

/-- The run state `STATE` (R34). -/
inductive RunState where
  | running
  | halted
deriving DecidableEq, Repr

/-- The fault code `FAULT` (R35). The codes 6 and 7 are reserved and never written. -/
inductive FaultCode where
  /-- 0 NONE: still running, or a normal halt -/
  | noFault
  /-- 1 LABEL_UNRESOLVED: `J`, `C` -/
  | labelUnresolved
  /-- 2 BRACKET_UNMATCHED: `[`, `]` -/
  | bracketUnmatched
  /-- 3 STACK_OVERFLOW: `C` -/
  | stackOverflow
  /-- 4 STACK_UNDERFLOW: `R` -/
  | stackUnderflow
  /-- 5 CONFIG_REJECTED: the reset sequence -/
  | configRejected
deriving DecidableEq, Repr

/-- The conditions of the Status Register, in bit order (R25). -/
inductive StatusBit where
  /-- 0 OV overflow -/
  | ov
  /-- 1 UF underflow -/
  | uf
  /-- 2 DZ divide-by-zero -/
  | dz
  /-- 3 II invalid-instruction -/
  | ii
  /-- 4 IMA invalid-memory-access -/
  | ima
  /-- 5 IMAL invalid-memory-alignment -/
  | imal
  /-- 6 IMS invalid-memory-size -/
  | ims
  /-- 7 IMR invalid-memory-range -/
  | imr
deriving DecidableEq, Repr

/-- The sixteen named slots of the register window, in address order (R23). -/
inductive WindowSlot where
  | zeroFlag
  | signFlag
  | generalPurpose
  | io
  | stackPointerSlot
  | programCounterSlot
  | statusRegister
  | instructionRegister
  | basePointer
  | flagsRegister
  | returnAddress
  | compare
  | temp0
  | temp1
  | temp2
  | temp3
deriving DecidableEq, Repr

/-- The state of the machine between two steps (R20), with the configuration sampled at reset (R40), and
two fields of the model's own for the host's side of the input port and of `rst`. -/
structure State where
  /-- the data memory `M`, window, `SR` and `IR` included (R21, R23, R25, R27) -/
  mem : Memory
  /-- the program counter `PC`, 0..65535 (R30) -/
  pc : Nat
  /-- the data pointer `DP`, 0..MEM_SIZE−1 (R31) -/
  dp : Nat
  /-- the stack pointer `SP`, 16..MEM_SIZE (R33) -/
  sp : Nat
  /-- the run state `STATE` (R34) -/
  runState : RunState
  /-- the fault code `FAULT` (R35) -/
  fault : FaultCode
  /-- the fault address `FAULT_PC` (R36) -/
  faultPc : Nat
  /-- the label table `LT` (R37) -/
  labels : LabelTable
  /-- the input buffer `INBUF`: empty, or one byte (R38) -/
  inbuf : Option Byte
  /-- the output stream, in execution order (R39) -/
  output : List Byte
  /-- configuration: MEM_SIZE (R8, R52) -/
  memSize : Nat
  /-- configuration: the program text; PROG_LEN is its length (R53) -/
  text : List Byte
  /-- configuration: LABEL_CAPACITY (R8) -/
  labelCapacity : LabelCapacity
  /-- the model's own: the bytes the host is going to present on the input port, in order (log entry 3) -/
  input : List Byte
  /-- the model's own: the level of the `rst` input, true while it is asserted (R51) -/
  rst : Bool
deriving DecidableEq, Repr

/-- Why the machine has no step. Every one is safe: the state stays as it is, so nothing false can be
proved of a state after it. -/
inductive Fault where
  /-- `STATE` is Halted: no step is enabled, and only reset leaves it (R34). Raised by the step. Safe. -/
  | halted
  /-- `rst` is asserted: the CORE executes no step (R51). Raised by the step. Safe. -/
  | inReset
  /-- A `,` waits and the host has presented no byte: there is no step from this state until it does
  (R142, R145; log entry 4). Raised by IN. Safe. -/
  | awaitingInput
  /-- A data-memory access outside [0, MEM_SIZE), or a memory smaller than the register window. No state
  that a run reaches raises it (R66; log entry 7). Raised by the operations that access memory. Safe. -/
  | addressOutOfRange
deriving DecidableEq, Repr

/-- Why an instruction has no meaning here. -/
inductive Refusal where
  /-- The instruction is not modelled. Raised by no arm: every instruction has its meaning. Safe. -/
  | notModelled (mnemonic : String)
deriving DecidableEq, Repr

/-- What a step or an instruction answers. -/
abbrev Result := Host.Outcome State Fault Refusal

/-- What the host supplies before it releases `rst` (R50, R52, R53), with the implementation's
LABEL_CAPACITY (R8) and the bytes the host is going to present (log entry 3). -/
structure LaunchConfig where
  /-- `cfg_mem_size` -/
  memSize : Nat
  /-- the program store; `cfg_prog_len` is its length (log entry 12) -/
  text : List Byte
  /-- LABEL_CAPACITY (R8) -/
  labelCapacity : LabelCapacity
  /-- the bytes the host is going to present on the input port -/
  input : List Byte
deriving DecidableEq, Repr

/-- The machine right after the reset sequence (R41, R294), launched with the source's default MEM_SIZE
65536, an empty program text, unbounded LABEL_CAPACITY and no input byte (log entries 1 and 3). -/
def State.reset : State where
  mem := []
  pc := 0
  dp := 16
  sp := 65536
  runState := .running
  fault := .noFault
  faultPc := 0
  labels := []
  inbuf := none
  output := []
  memSize := 65536
  text := []
  labelCapacity := none
  input := []
  rst := false

end Sys2Proof.Machine
end

