-- ==== Sys2Proof/Machine/Ops.lean ====
section
/-! DEFINITION. The named operations over memory, registers, the call stack and the ports
(spec/20_memory.md, spec/42_io.md, spec/45_labels_and_calls.md), and the fatal fault
(spec/60_exceptions.md R262). -/

namespace Sys2Proof.Machine

/-! ### Data memory -/

/-- The byte at an address: the listed one, or what an unlisted address reads as (R21, R41). -/
def Memory.read : Memory → Nat → Byte
  | [], _ => Config.unlistedByte
  | (k, v) :: t, a => if k = a then v else Memory.read t a

/-- A memory that does not list `a`, with `a` listed before the first greater address. -/
def Memory.insert : Memory → Nat → Byte → Memory
  | [], a, b => [(a, b)]
  | (k, v) :: t, a, b => if a < k then (a, b) :: (k, v) :: t else (k, v) :: Memory.insert t a b

/-- Stores a byte and keeps the canonical form (R21): a byte that an unlisted address reads as is not
listed. -/
def Memory.write (m : Memory) (a : Nat) (b : Byte) : Memory :=
  let others := m.filter (·.1 ≠ a)
  if b = Config.unlistedByte then others else Memory.insert others a b

/-- The canonical form: addresses strictly rising, no byte that an unlisted address reads as. -/
abbrev Memory.wf (m : Memory) : Prop :=
  m.Pairwise (·.1 < ·.1) ∧ ∀ c ∈ m, c.2 ≠ Config.unlistedByte

/-- `MemRead(a, 1)` (R11). -/
def State.readByte (s : State) (a : Nat) : Byte := s.mem.read a

/-- `MemWrite(a, 1, b)` (R11). -/
def State.writeByte (s : State) (a : Nat) (b : Byte) : State := { s with mem := s.mem.write a b }

/-! ### Dedicated registers -/

/-- `PC <- n` (R30). -/
def State.setPc (s : State) (n : Nat) : State := { s with pc := n }

/-- The fall-through of R102: `PC <- PC + 1`. -/
def State.advance (s : State) : State := s.setPc (s.pc + 1)

/-- `DP <- n` (R31). -/
def State.setDp (s : State) (n : Nat) : State := { s with dp := n }

/-- `SP <- n` (R33). -/
def State.setSp (s : State) (n : Nat) : State := { s with sp := n }

/-- `STATE <- Halted` (R34). -/
def State.halt (s : State) : State := { s with runState := .halted }

/-! ### The fatal fault -/

/-- `raise Fault(kind)` (R262): FAULT and FAULT_PC are written and the machine halts; PC, DP, SP and memory
keep their values. There is no handler and no return from a fault (R266, R267): only `rst` leaves it
(`State.assertRst` and `State.releaseRst` in Machine/Boot.lean). -/
def State.raiseFault (s : State) (kind : FaultCode) : State :=
  { s with fault := kind, faultPc := s.pc, runState := .halted }

/-! ### Ports of the instructions -/

/-- `Out(b)` (R141): the byte goes to the end of the output stream. -/
def State.emit (s : State) (b : Byte) : State := { s with output := s.output ++ [b] }

/-- The byte the host presents goes into INBUF (R142). -/
def State.fillInbuf (s : State) (b : Byte) (later : List Byte) : State :=
  { s with inbuf := some b, input := later }

/-- INBUF is emptied: its byte is consumed by the current `,` (R142). -/
def State.clearInbuf (s : State) : State := { s with inbuf := none }

/-- `In()` (R142): the next byte the host presents passes through INBUF; while it presents none there is no
step (R145). -/
def State.takeInput (s : State) (k : Byte → State → Result) : Result :=
  match s.input with
  | [] => .fault .awaitingInput
  | b :: later => k b (s.fillInbuf b later).clearInbuf

/-! ### The call stack -/

/-- The high byte of a return address, stored at the lower address (R63). -/
def highByte (a : ReturnAddress) : Byte := a.extractLsb' 8 8

/-- The low byte of a return address (R63). -/
def lowByte (a : ReturnAddress) : Byte := a.extractLsb' 0 8

/-- `MemWrite(addr, 2, a)`: high byte first (R11, R63). -/
def State.writeWord (s : State) (addr : Nat) (a : ReturnAddress) : State :=
  (s.writeByte addr (highByte a)).writeByte (addr + 1) (lowByte a)

/-- `MemRead(addr, 2)`: the big-endian number (R11, R63). -/
def State.readWord (s : State) (addr : Nat) : ReturnAddress :=
  s.readByte addr ++ s.readByte (addr + 1)

/-- `Push(a)` (R236): the fatal STACK_OVERFLOW before any write, or SP is decremented and the two bytes
written. -/
def State.push (s : State) (a : ReturnAddress) (k : State → Result) : Result :=
  if s.sp < Config.windowSize + 2 then .next (s.raiseFault .stackOverflow)
  else if s.sp ≤ s.memSize then k ((s.setSp (s.sp - 2)).writeWord (s.sp - 2) a)
  else .fault .addressOutOfRange

/-- `Pop()` (R237): the fatal STACK_UNDERFLOW, or the two bytes at SP are read and SP is incremented. -/
def State.pop (s : State) (k : ReturnAddress → State → Result) : Result :=
  if s.memSize < s.sp + 2 then .next (s.raiseFault .stackUnderflow)
  else k (s.readWord s.sp) (s.setSp (s.sp + 2))

/-! ### Label lookup -/

/-- `LT[name]`: the address of a declared name (R37, R238), compared byte for byte. -/
def LabelTable.resolve : LabelTable → List Byte → Option Nat
  | [], _ => none
  | (k, a) :: t, name => if k = name then some a else LabelTable.resolve t name

/-- `Resolve(name)` (R238): the address, or the fatal LABEL_UNRESOLVED. -/
def State.resolve (s : State) (name : List Byte) (k : Nat → Result) : Result :=
  match s.labels.resolve name with
  | none => .next (s.raiseFault .labelUnresolved)
  | some t => k t

end Sys2Proof.Machine
end

