-- ==== Sys2Proof/Machine/Labels.lean ====
section
/-! DEFINITION. The label resolver, the pre-pass over the program text (spec/45_labels_and_calls.md R230 to
R234). -/

namespace Sys2Proof.Machine

/-- The lines of a text: the runs between LF bytes, the last one included even when empty (R231). -/
def splitLines : List Byte → List (List Byte)
  | [] => [[]]
  | b :: t =>
    if b = Config.lf then [] :: splitLines t
    else match splitLines t with
      | [] => [[b]]
      | l :: ls => (b :: l) :: ls

/-- `TrimWS`: without the leading and trailing WS bytes (R232). -/
def trimWs (l : List Byte) : List Byte := ((l.dropWhile isWs).reverse.dropWhile isWs).reverse

/-- The name a line declares: the trimmed bytes before its first colon, if it holds a colon (R232). -/
def declaredName (line : List Byte) : Option (List Byte) :=
  if Config.colon ∈ line then some (trimWs (line.takeWhile (· != Config.colon))) else none

/-- `LT[name] <- addr`: a second declaration of a name replaces its address and takes no new slot (R234). -/
def LabelTable.declare : LabelTable → List Byte → Nat → LabelTable
  | [], name, addr => [(name, addr)]
  | (k, a) :: t, name, addr =>
    if k = name then (k, addr) :: t else (k, a) :: LabelTable.declare t name addr

/-- Whether the table has as many names as LABEL_CAPACITY allows (R233). -/
def LabelTable.full (lt : LabelTable) (capacity : LabelCapacity) : Bool :=
  match capacity with
  | none => false
  | some n => lt.length == (n : Nat)

/-- The loop of `BuildLabels` (R233): a label line declares its name at the running address and adds
nothing; any other line adds its length. No table: the configuration is rejected. -/
def scanLines (capacity : LabelCapacity) : LabelTable → Nat → List (List Byte) → Option LabelTable
  | lt, _, [] => some lt
  | lt, addr, line :: lines =>
    match declaredName line with
    | none => scanLines capacity lt (addr + line.length) lines
    | some name =>
      if lt.resolve name = none ∧ lt.full capacity = true then none
      else scanLines capacity (lt.declare name addr) addr lines

/-- `BuildLabels()` (R233) over a program text. -/
def buildLabels (capacity : LabelCapacity) (text : List Byte) : Option LabelTable :=
  scanLines capacity [] 0 (splitLines text)

end Sys2Proof.Machine
end

