-- ==== Sys2Proof/Machine/Cycle.lean ====
section
/-! DEFINITION. The step of spec/40_dispatch.md R100 to R103 around the dispatch: the end-of-text test, the
fetch, the write of `IR`; and the placing of a program in the program store. -/

namespace Sys2Proof.Machine

/-- The program text from `PC` on (R30, R101). -/
def State.ahead (s : State) : List Byte := s.text.drop s.pc

/-- `MemWrite(7, 1, op)` (R101), before the instruction reads anything. -/
def State.latchIr (s : State) (op : Byte) (k : State → Result) : Result :=
  if Config.windowSize ≤ s.memSize then k (s.writeByte Config.irAddr op) else .fault .addressOutOfRange

/-- `Step()` of R103, given the dispatch. No step while `rst` is asserted (R51) or the machine is Halted
(R34); at the end of the text the machine halts and does nothing else (R100); otherwise the opcode at PC goes
to `IR` and its instruction runs (R101). -/
def State.cycle (s : State) (dispatch : Instr → State → Result) : Result :=
  if s.rst then .fault .inReset
  else match s.runState with
    | .halted => .fault .halted
    | .running =>
      match decode s.ahead with
      | .error .endOfText => .next s.halt
      | .ok (i, _) => s.latchIr (opcodeOf i) (dispatch i)

/-- The host loads a program whose bytes from PC on are the given ones and end the text, and the pre-pass
runs over it (R53, R230). Before PC the text stays, with no-op bytes where it was shorter (log entry 14). -/
def State.loadAtPc (s : State) (bytes : List Byte) : State :=
  let before := s.text.take s.pc
  let text := before ++ List.replicate (s.pc - before.length) 0 ++ bytes
  { s with text := text, labels := (buildLabels s.labelCapacity text).getD [] }

end Sys2Proof.Machine
end

