-- ==== Sys2Proof/Machine/Flags.lean ====
section
/-! DEFINITION. The Status Register and its bits (spec/10_state.md R25, R26; spec/44_alu.md R183), the named
window slots (R23), and the 8-bit unsigned results of the ALU (R196). -/

namespace Sys2Proof.Machine

/-- The bit number of a condition in `SR` (R25). -/
def StatusBit.index : StatusBit → Nat
  | .ov => 0
  | .uf => 1
  | .dz => 2
  | .ii => 3
  | .ima => 4
  | .imal => 5
  | .ims => 6
  | .imr => 7

/-- The address of a window slot (R23). -/
def WindowSlot.offset : WindowSlot → Nat
  | .zeroFlag => 0
  | .signFlag => 1
  | .generalPurpose => 2
  | .io => 3
  | .stackPointerSlot => 4
  | .programCounterSlot => 5
  | .statusRegister => 6
  | .instructionRegister => 7
  | .basePointer => 8
  | .flagsRegister => 9
  | .returnAddress => 10
  | .compare => 11
  | .temp0 => 12
  | .temp1 => 13
  | .temp2 => 14
  | .temp3 => 15

/-- A byte with one bit replaced. -/
def withBit (v : Byte) (k : Nat) (c : Bool) : Byte :=
  if c then v ||| (1#8 <<< k) else v &&& ~~~(1#8 <<< k)

/-- `SetBit(k, c)` (R11): one bit of `M[6]` as it stands, the other seven kept. -/
def State.setBit (s : State) (k : StatusBit) (c : Bool) : State :=
  s.writeByte Config.srAddr (withBit (s.readByte Config.srAddr) k.index c)

/-- The Status Register `SR`, the byte `M[6]` (R25). -/
def State.sr (s : State) : Byte := s.readByte Config.srAddr

/-- The Instruction Register `IR`, the byte `M[7]` (R27). -/
def State.ir (s : State) : Byte := s.readByte Config.irAddr

/-- One bit of the Status Register (R25). -/
def State.statusBit (s : State) (k : StatusBit) : Bool := s.sr.getLsbD k.index

/-- One slot of the register window (R23). -/
def State.slot (s : State) (w : WindowSlot) : Byte := s.readByte w.offset

/-! ### Exact results and their narrowing -/

/-- `r mod 256` as a byte (R183). -/
def narrow (r : Int) : Byte := BitVec.ofInt 8 r

/-- Whether an exact result lies outside 0..255: the new OV (R183). -/
def wraps (r : Int) : Bool := decide (r < 0) || decide (255 < r)

/-- The exact sum of two unsigned bytes (R190). -/
def exactAdd (a b : Byte) : Int := (a.toNat : Int) + b.toNat

/-- The exact product (R191). -/
def exactMul (a b : Byte) : Int := (a.toNat : Int) * b.toNat

/-- The exact difference (R192). -/
def exactSub (a b : Byte) : Int := (a.toNat : Int) - b.toNat

/-- The unsigned quotient, rounded toward zero (R193). -/
def quotient (a b : Byte) : Byte := BitVec.ofNat 8 (a.toNat / b.toNat)

/-- The unsigned remainder (R193, R194). -/
def remainder (a b : Byte) : Byte := BitVec.ofNat 8 (a.toNat % b.toNat)

/-- `255 − a`, the bitwise complement (R187, R195). -/
def complement (a : Byte) : Byte := 255#8 - a

/-- The logical right shift by 1: `a div 2` (R188). -/
def shiftRight (a : Byte) : Byte := BitVec.ofNat 8 (a.toNat / 2)

/-- The logical left shift by 1: `(a * 2) mod 256` (R189). -/
def shiftLeft (a : Byte) : Byte := BitVec.ofNat 8 (a.toNat * 2)

end Sys2Proof.Machine
end

