-- ==== Sys2Proof/Machine/Operands.lean ====
section
/-! DEFINITION. The operand forms (spec/44_alu.md R180 to R182): the cell at the data pointer, and the pair
of cells at the data pointer and the address after it. -/

namespace Sys2Proof.Machine

/-- The cell at the data pointer exists, and so does the register window: what every state of a run has
(R21, R31, R66). -/
abbrev State.cellInRange (s : State) : Prop := Config.windowSize ≤ s.memSize ∧ s.dp < s.memSize

/-- The cell "at pointer": `M[DP]` (R15, R180). -/
def State.cell (s : State) : Byte := s.readByte s.dp

/-- The cell at "pointer+1": `M[DP+1]`, not wrapped (R15, R180). -/
def State.nextCell (s : State) : Byte := s.readByte (s.dp + 1)

/-- The one-operand form: the cell `M[DP]` (R180). -/
def State.withCell (s : State) (k : Byte → Result) : Result :=
  if s.cellInRange then k s.cell else .fault .addressOutOfRange

/-- An instruction that replaces its cell and falls through, and does nothing else. -/
def State.updateCell (s : State) (f : Byte → Byte) : Result :=
  s.withCell fun a => .next (s.writeByte s.dp (f a)).advance

/-- The two-operand form: `M[DP]` and `M[DP+1]`, both read before any write (R180). At the top of memory
IMR is set and nothing else happens, before any other check (R182). -/
def State.withCells (s : State) (k : Byte → Byte → Result) : Result :=
  if s.cellInRange then
    if s.dp + 1 = s.memSize then .next (s.setBit .imr true).advance
    else k s.cell s.nextCell
  else .fault .addressOutOfRange

/-- A two-operand instruction that writes one result into `M[DP]` and no flag (R184 to R186). -/
def State.combineCells (s : State) (f : Byte → Byte → Byte) : Result :=
  s.withCells fun a b => .next (s.writeByte s.dp (f a b)).advance

/-- A two-operand instruction with an exact integer result: `M[DP]` takes it modulo 256, then OV records
whether that changed it (R181, R183). -/
def State.arithmetic (s : State) (f : Byte → Byte → Int) : Result :=
  s.withCells fun a b =>
    .next ((s.writeByte s.dp (narrow (f a b))).setBit .ov (wraps (f a b))).advance

end Sys2Proof.Machine
end

