-- ==== Sys2Proof/Machine/Alu.lean ====
section
/-! DEFINITION. The ALU instructions `&` `|` `^` `~` `#` `@` `A` `M` `S` `D` `%` `!` (spec/44_alu.md). -/

namespace Sys2Proof.Machine

/-- `&` AND (R184). -/
def execAnd (s : State) : Result := s.combineCells (· &&& ·)

/-- `|` OR (R185). -/
def execOr (s : State) : Result := s.combineCells (· ||| ·)

/-- `^` XOR (R186). -/
def execXor (s : State) : Result := s.combineCells (· ^^^ ·)

/-- `~` NOT (R187). -/
def execNot (s : State) : Result := s.updateCell complement

/-- `#` SHR (R188). -/
def execShr (s : State) : Result := s.updateCell shiftRight

/-- `@` SHL (R189). -/
def execShl (s : State) : Result := s.updateCell shiftLeft

/-- `A` ADD (R190). -/
def execAdd (s : State) : Result := s.arithmetic exactAdd

/-- `M` MUL (R191). -/
def execMul (s : State) : Result := s.arithmetic exactMul

/-- `S` SUB (R192). -/
def execSub (s : State) : Result := s.arithmetic exactSub

/-- `D` DIV (R193): a zero divisor sets DZ and leaves both cells; otherwise the quotient goes to `M[DP]`,
then the remainder to `M[DP+1]`. DZ is never cleared, OV never written. -/
def execDiv (s : State) : Result :=
  s.withCells fun a b =>
    if b = 0 then .next (s.setBit .dz true).advance
    else .next ((s.writeByte s.dp (quotient a b)).writeByte (s.dp + 1) (remainder a b)).advance

/-- `%` MOD (R194): a zero divisor is a no-op and sets no flag. -/
def execMod (s : State) : Result :=
  s.withCells fun a b =>
    if b = 0 then .next s.advance else .next (s.writeByte s.dp (remainder a b)).advance

/-- `!` NOTB (R195). -/
def execNotb (s : State) : Result := s.updateCell complement

end Sys2Proof.Machine
end

