-- ==== Sys2Proof/Machine/Control.lean ====
section
/-! DEFINITION. The control-transfer instructions `J` `C` `R` (spec/45_labels_and_calls.md) and the two of
the dispatcher, `;` and the no-op (spec/40_dispatch.md). -/

namespace Sys2Proof.Machine

/-- `J` JMP: `PC <- Resolve(name)` (R240). -/
def execJmp (l : LabelOperand) (s : State) : Result := s.resolve l.name fun t => .next (s.setPc t)

/-- `C` CALL: resolve, then push the index just past the operand, then jump (R241, R264). -/
def execCall (l : LabelOperand) (s : State) : Result :=
  s.resolve l.name fun t =>
    s.push (BitVec.ofNat 16 (s.pc + lengthOf (.call l))) fun s => .next (s.setPc t)

/-- `R` RET: `PC <- Pop()` (R242). -/
def execRet (s : State) : Result := s.pop fun a s => .next (s.setPc a.toNat)

/-- `;` HALT: `STATE <- Halted`, PC unchanged, FAULT unchanged (R105). -/
def execHalt (s : State) : Result := .next s.halt

/-- NOP: `PC <- PC + 1` (R106). The byte has gone to `IR` at the fetch (R101). -/
def execNop (_byte : Byte) (s : State) : Result := .next s.advance

end Sys2Proof.Machine
end

