-- ==== Sys2Proof/Machine/InputOutput.lean ====
section
/-! DEFINITION. The I/O instructions `.` `,` (spec/42_io.md). -/

namespace Sys2Proof.Machine

/-- `.` OUT: `Out(M[DP])` (R143). -/
def execOut (s : State) : Result := s.withCell fun a => .next (s.emit a).advance

/-- `,` IN: the byte `In()` returns is stored at `M[DP]` (R144). With no byte from the host the instruction
waits, and there is no step (R142, R145). -/
def execInp (s : State) : Result := s.takeInput fun b s => s.updateCell fun _ => b

end Sys2Proof.Machine
end

