-- ==== Sys2Proof/Machine/Loops.lean ====
section
/-! DEFINITION. The bracket matcher and the loop instructions `[` `]` (spec/43_loops.md). -/

namespace Sys2Proof.Machine

/-- The scan of R161 over the bytes in scan order: the depth rises on `up` and falls on `down`; the answer
is how many bytes stand before the one that brings it to 0. -/
def scanMatch (up down : Byte) : List Byte → Nat → Option Nat
  | [], _ => none
  | b :: t, depth =>
    let depth := if b = up then depth + 1 else if b = down then depth - 1 else depth
    if depth = 0 then some 0 else (scanMatch up down t depth).map (· + 1)

/-- `MatchForward(p)` (R161): the index of the `]` that matches the `[` at `p`. -/
def matchForward (text : List Byte) (p : Nat) : Option Nat :=
  (scanMatch Config.openBracket Config.closeBracket (text.drop (p + 1)) 1).map (p + 1 + ·)

/-- `MatchBackward(p)` (R161): the index of the `[` that matches the `]` at `p`. -/
def matchBackward (text : List Byte) (p : Nat) : Option Nat :=
  let before := (text.take p).reverse
  (scanMatch Config.closeBracket Config.openBracket before 1).map (before.length - 1 - ·)

/-- Where a taken loop lands: one past the matched bracket, or the fatal BRACKET_UNMATCHED
(R102, R161; 90_conflicts C3). -/
def State.landPast (s : State) (matched : Option Nat) : Result :=
  match matched with
  | none => .next (s.raiseFault .bracketUnmatched)
  | some m => .next (s.setPc (m + 1))

/-- `[` LOOPOPEN: with a zero cell, past the matching `]` (R162). -/
def execLoopOpen (s : State) : Result :=
  s.withCell fun a => if a = 0 then s.landPast (matchForward s.text s.pc) else .next s.advance

/-- `]` LOOPCLOSE: with a non-zero cell, past the matching `[` (R163). -/
def execLoopClose (s : State) : Result :=
  s.withCell fun a => if a ≠ 0 then s.landPast (matchBackward s.text s.pc) else .next s.advance

end Sys2Proof.Machine
end

