-- ==== Sys2Proof/Machine/PointerCell.lean ====
section
/-! DEFINITION. The data-pointer and cell instructions `>` `<` `+` `-` `0` (spec/41_pointer_and_cell.md). -/

namespace Sys2Proof.Machine

/-- `>` INCP: `DP <- (DP + 1) mod MEM_SIZE` (R120). -/
def execIncp (s : State) : Result := .next (s.setDp ((s.dp + 1) % s.memSize)).advance

/-- `<` DECP: `DP <- (DP + MEM_SIZE − 1) mod MEM_SIZE` (R121). -/
def execDecp (s : State) : Result := .next (s.setDp ((s.dp + s.memSize - 1) % s.memSize)).advance

/-- `+` INC: `M[DP] <- (M[DP] + 1) mod 256`, no flag (R122). -/
def execInc (s : State) : Result := s.updateCell (· + 1)

/-- `-` DEC: `M[DP] <- (M[DP] + 255) mod 256`, no flag (R123). -/
def execDec (s : State) : Result := s.updateCell (· + 255)

/-- `0` ZERO: `M[DP] <- 0` (R124). -/
def execZero (s : State) : Result := s.updateCell fun _ => 0

end Sys2Proof.Machine
end

