-- ==== Sys2Proof/Machine/Step.lean ====
section
/-! DEFINITION. One step of the machine (spec/40_dispatch.md R103), and the placing of one instruction where
the step fetches. -/

namespace Sys2Proof.Machine

/-- One step (R100 to R103). -/
def step (s : State) : Host.Outcome State Fault Refusal := s.cycle exec

/-- The state with one word of spec/opcode_table.json in the program store at PC, where the next step fetches
it (log entry 14). -/
def State.withFetchWord (s : State) (nbits w : Nat) : State := s.loadAtPc (wordBytes nbits w)

end Sys2Proof.Machine
end

