-- ==== Sys2Proof/Machine/Boot.lean ====
section
/-! DEFINITION. The `rst` input, the reset sequence and the configuration check
(spec/70_reset_and_hazards.md R290 to R294). -/

namespace Sys2Proof.Machine

/-- The checks of stage 2 (R292): the memory size and the program length are legal. -/
abbrev LaunchConfig.legal (c : LaunchConfig) : Prop :=
  Config.windowSize ≤ c.memSize ∧ c.memSize ≤ Config.maxMemSize ∧ c.text.length ≤ Config.maxProgLen

/-- The state of an accepted launch with the label table the pre-pass built (R41, R294). -/
def LaunchConfig.started (c : LaunchConfig) (labels : LabelTable) : State where
  mem := []
  pc := 0
  dp := 16 % c.memSize
  sp := c.memSize
  runState := .running
  fault := .noFault
  faultPc := 0
  labels := labels
  inbuf := none
  output := []
  memSize := c.memSize
  text := c.text
  labelCapacity := c.labelCapacity
  input := c.input
  rst := false

/-- The state of a rejected launch (R292): Halted, FAULT 5, FAULT_PC 0, no output, no label table. The rest
is not defined: free values (log entry 8). -/
def LaunchConfig.rejected (c : LaunchConfig) : State where
  mem := Config.undefinedMemory 0
  pc := Config.undefinedPc 0
  dp := Config.undefinedDp 0
  sp := Config.undefinedSp 0
  runState := .halted
  fault := .configRejected
  faultPc := 0
  labels := []
  inbuf := none
  output := []
  memSize := c.memSize
  text := c.text
  labelCapacity := c.labelCapacity
  input := c.input
  rst := false

/-- The reset sequence (R290): the check, the reset values, the pre-pass, Running. -/
def boot (c : LaunchConfig) : State :=
  if c.legal then
    match buildLabels c.labelCapacity c.text with
    | some labels => c.started labels
    | none => c.rejected
  else c.rejected

/-- The host asserts `rst` (R291): the run is abandoned, memory, registers (`STATE` among them) and LT lose their contents (free
values, log entry 9), all fault state is cleared. -/
def State.assertRst (s : State) : State :=
  { s with
    mem := Config.undefinedMemory 1
    pc := Config.undefinedPc 1
    dp := Config.undefinedDp 1
    sp := Config.undefinedSp 1
    runState := if Config.undefinedHalted 1 then .halted else .running
    labels := Config.undefinedLabels 1
    fault := .noFault
    faultPc := 0
    inbuf := none
    output := []
    rst := true }

/-- The host releases `rst` (R51, R290): the reset sequence runs, whatever the state was. -/
def State.releaseRst (_before : State) (c : LaunchConfig) : State := boot c

end Sys2Proof.Machine
end

