-- ==== Sys2Proof/Machine/Ports.lean ====
section
/-! DEFINITION. What the host sees and does at the ports between steps (spec/10_state.md R50 to R57,
spec/70_reset_and_hazards.md R291). -/

namespace Sys2Proof.Machine

/-- FAULT as the 3-bit code (R35). -/
def FaultCode.code : FaultCode → BitVec 3
  | .noFault => 0
  | .labelUnresolved => 1
  | .bracketUnmatched => 2
  | .stackOverflow => 3
  | .stackUnderflow => 4
  | .configRejected => 5

/-- `halted`: 1 exactly when STATE is Halted; 0 while `rst` is asserted (R56, R291). -/
def State.haltedPort (s : State) : Bool := !s.rst && s.runState == .halted

/-- `fault_code` (R56, R291). -/
def State.faultCodePort (s : State) : BitVec 3 := if s.rst then 0 else s.fault.code

/-- `fault_pc` (R56, R291). -/
def State.faultPcPort (s : State) : BitVec 16 := if s.rst then 0 else BitVec.ofNat 16 s.faultPc

/-- `in_req`: a `,` step is under way, and at no other time (R55, R142, R291). -/
def State.inReq (s : State) : Bool :=
  !s.rst && s.runState == .running && s.ahead.head? == some (opcodeOf .inp)

/-- `in_valid` and `in_data`: the host has one more byte to present (R55, log entry 3). -/
def State.presentInput (s : State) (b : Byte) : State := { s with input := s.input ++ [b] }

/-- `prog_data` for a `prog_addr` below PROG_LEN (R53). -/
def State.progData (s : State) (addr : Nat) : Option Byte := s.text[addr]?

/-- `out_valid` and `out_data` of a step from one state to another: the bytes it strobes (R54). -/
def State.outStrobe (before after : State) : List Byte := after.output.drop before.output.length

/-- `mem_rd_data` (R57): valid while Halted on an accepted configuration; 0 at or above MEM_SIZE. Where it is
not valid the model gives no byte (log entry 10). -/
def State.memReadPort (s : State) (addr : BitVec 16) : Option Byte :=
  if s.haltedPort && s.fault != .configRejected then
    some (if addr.toNat < s.memSize then s.readByte addr.toNat else 0)
  else none

end Sys2Proof.Machine
end

