-- ==== Sys2Proof/Safety.lean ====
section
/-! DEFINITION. What holds of every state of a run that a legal launch started, and which stops are the
spec's own. -/

namespace Sys2Proof.Machine

/-- What every state of an accepted launch satisfies. -/
structure State.Inv (s : State) : Prop where
  /-- MEM_SIZE is legal (R8, R292). -/
  memSize_low : Config.windowSize ≤ s.memSize
  /-- MEM_SIZE is legal (R8, R292). -/
  memSize_high : s.memSize ≤ Config.maxMemSize
  /-- PROG_LEN is legal (R8, R292). -/
  progLen_high : s.text.length ≤ Config.maxProgLen
  /-- The memory has its canonical form. -/
  mem_wf : s.mem.wf
  /-- The memory holds addresses below MEM_SIZE only (R66). -/
  mem_inside : ∀ c ∈ s.mem, c.1 < s.memSize
  /-- PC holds 0 to 65535 (R30). -/
  pc_range : s.pc ≤ 65535
  /-- DP holds 0 to MEM_SIZE−1 (R31). -/
  dp_range : s.dp < s.memSize
  /-- SP holds 16 to MEM_SIZE (R33). -/
  sp_low : Config.windowSize ≤ s.sp
  /-- SP holds 16 to MEM_SIZE (R33). -/
  sp_high : s.sp ≤ s.memSize
  /-- SP is odd exactly when MEM_SIZE is odd (R64). -/
  sp_parity : s.sp % 2 = s.memSize % 2
  /-- FAULT is 0 while the machine runs (R35). -/
  running_clean : s.runState = .running → s.fault = .noFault
  /-- FAULT 5 belongs to a rejected launch (R292). -/
  accepted : s.fault ≠ .configRejected
  /-- FAULT_PC is 0, or the PC of the instruction that raised the fault, on which PC stays (R36, R262). -/
  faultPc_eq : s.faultPc = if s.fault = .noFault then 0 else s.pc
  /-- LT is what the pre-pass builds from the text (R230, R293). -/
  labels_built : buildLabels s.labelCapacity s.text = some s.labels
  /-- INBUF is empty between steps (R38). -/
  inbuf_empty : s.inbuf = none

/-- The stops the spec itself gives: Halted (R34), an asserted `rst` (R51), a waiting `,` (R142). The other,
an address out of range, must never be reached (R66). -/
def Fault.isSpecStop : Fault → Bool
  | .halted => true
  | .inReset => true
  | .awaitingInput => true
  | .addressOutOfRange => false

end Sys2Proof.Machine
end

