-- ==== Sys2Proof/WellFormed.lean ====
section
/-! DEFINITION. Which terms of `Instr` stand for an instruction of a program text (spec/30_encoding.md R82,
R83): the checks a decoded instruction passes. -/

namespace Sys2Proof

/-- Only spaces and tabs separate the opcode from the name (R83). -/
def LabelOperand.gapOk (l : LabelOperand) : Bool := l.gap.all isBlank

/-- A name holds no whitespace byte, which would end it (R83). -/
def LabelOperand.nameOk (l : LabelOperand) : Bool := l.name.all (!isWs ·)

/-- Without a sigil the name does not begin with `*`, which would be stripped (R83). -/
def LabelOperand.sigilOk (l : LabelOperand) : Bool := l.sigil || l.name.head? != some Config.star

/-- The operand stands for a label operand of R83. -/
def LabelOperand.wellFormed (l : LabelOperand) : Bool := l.gapOk && l.nameOk && l.sigilOk

/-- The instruction stands for an instruction of R80: a label operand is one of R83, and the byte of a
no-op is none of the listed bytes (R82). -/
def Instr.wellFormed : Instr → Bool
  | .jmp l => l.wellFormed
  | .call l => l.wellFormed
  | .nop b => !listedBytes.contains b
  | .incp | .decp | .inc | .dec | .out | .inp | .loopOpen | .loopClose | .zero | .and | .or | .xor
  | .not | .shr | .shl | .add | .mul | .sub | .div | .mod | .notb | .ret | .halt => true

end Sys2Proof
end

