-- ==== Sys2Proof/Certificates/Slice0/Obligations.lean ====
section
/-! DEFINITION. The statements for the provers, each from a numbered rule of spec/ or from several of them. -/

namespace Sys2Proof.Claims

open Sys2Proof.Machine

/-! ### Shared vocabulary of the statements -/

/-- One byte of text, whatever follows it, is the instruction. -/
def Encodes (b : Byte) (i : Instr) : Prop := ∀ rest, decode (b :: rest) = .ok (i, rest)

/-- The state goes on to the next byte, and besides `PC` only the memory may differ. -/
def FallsThrough (s t : State) : Prop := t = { s with mem := t.mem, pc := s.pc + 1 }

/-- Every byte outside the given addresses reads as before. -/
def KeepsBytesBut (written : List Nat) (s t : State) : Prop :=
  ∀ a, a ∉ written → t.readByte a = s.readByte a

/-- The instruction writes one byte, at `DP`, sets no flag elsewhere, and falls through. -/
def WritesCell (v : Byte) (s t : State) : Prop :=
  FallsThrough s t ∧ t.readByte s.dp = v ∧ KeepsBytesBut [s.dp] s t

/-- The suppressed two-operand instruction of R182: IMR (bit 7 of `M[6]`) is set, nothing else happens. -/
def Suppressed (s t : State) : Prop :=
  FallsThrough s t ∧ t.readByte 6 = s.readByte 6 ||| 0x80 ∧ KeepsBytesBut [6] s t

/-- A two-operand instruction completes at every `DP` in range: suppressed at the top of memory, with the given
effect below it. -/
def OnCells (i : Instr) (s : State) (effect : State → Prop) : Prop :=
  (s.dp + 1 = s.memSize → ∃ t, exec i s = .next t ∧ Suppressed s t) ∧
    (s.dp + 1 < s.memSize → ∃ t, exec i s = .next t ∧ effect t)

/-- The state after a fatal fault at `PC` (R262). -/
def faulted (s : State) (kind : FaultCode) : State :=
  { s with fault := kind, faultPc := s.pc, runState := .halted }

/-- The effect of an instruction with the exact result `r`: `M[DP]` takes `r mod 256`, then OV (bit 0 of
`M[6]`) says whether `r` lies outside 0..255, the other bits of `M[6]` kept (R181, R183). -/
def ArithmeticEffect (r : Int) (s t : State) : Prop :=
  FallsThrough s t ∧
    ∃ v : Byte, (v.toNat : Int) = r % 256 ∧
      (s.dp ≠ 6 → t.readByte s.dp = v) ∧
      (t.readByte 6).getLsbD 0 = decide (r < 0 ∨ 255 < r) ∧
      (∀ k, 0 < k → k < 8 →
        (t.readByte 6).getLsbD k = (if s.dp = 6 then v else s.readByte 6).getLsbD k) ∧
      KeepsBytesBut [s.dp, 6] s t

/-- `1` plus the number of `up` bytes minus the number of `down` bytes: the nesting depth of R161 after a
scan of these bytes. -/
def depthAfter (up down : Byte) (scanned : List Byte) : Int :=
  1 + ((scanned.count up : Int) - (scanned.count down : Int))

/-- `m` is the first index after `p` at which the depth of a scan from the `[` at `p` is 0 (R161). -/
def ForwardMatch (text : List Byte) (p m : Nat) : Prop :=
  p < m ∧ m < text.length ∧
    depthAfter 0x5B 0x5D ((text.take (m + 1)).drop (p + 1)) = 0 ∧
    ∀ j, p ≤ j → j < m → 0 < depthAfter 0x5B 0x5D ((text.take (j + 1)).drop (p + 1))

/-- `m` is the first index below `p`, going down, at which the depth of a scan from the `]` at `p` is 0
(R161). -/
def BackwardMatch (text : List Byte) (p m : Nat) : Prop :=
  m < p ∧
    depthAfter 0x5D 0x5B ((text.take p).drop m) = 0 ∧
    ∀ j, m < j → j ≤ p → 0 < depthAfter 0x5D 0x5B ((text.take p).drop j)

/-- What follows a label operand in the text ends it: the end of the text or a whitespace byte, which no
blank is where the operand is empty (R83). -/
def Delimited (l : LabelOperand) (rest : List Byte) : Prop :=
  rest = [] ∨
    ∃ b t, rest = b :: t ∧ isWs b = true ∧ (l.name = [] → l.sigil = false → isBlank b = false)

/-- What follows an instruction in the text does not belong to it. -/
def Separated : Instr → List Byte → Prop
  | .jmp l, rest => Delimited l rest
  | .call l, rest => Delimited l rest
  | _, _ => True

/-- The eight two-operand instructions (R180). -/
def twoOperand : List Instr := [.and, .or, .xor, .add, .mul, .sub, .div, .mod]

/-- The 25 bytes R80 lists. -/
def tableBytes : List Byte :=
  [0x3E, 0x3C, 0x2B, 0x2D, 0x2E, 0x2C, 0x5B, 0x5D, 0x30, 0x26, 0x7C, 0x5E, 0x7E, 0x23, 0x40, 0x41, 0x4D,
   0x53, 0x44, 0x25, 0x21, 0x4A, 0x43, 0x52, 0x3B]

/-- The names the lines of a text declare, each once. -/
def declaredNames (text : List Byte) : List (List Byte) :=
  ((splitLines text).filterMap declaredName).dedup

/-- The configuration check of R292 fails. -/
def MustReject (c : LaunchConfig) : Prop :=
  c.memSize < 16 ∨ 65536 < c.memSize ∨ 65535 < c.text.length ∨
    ∃ n, c.labelCapacity = some n ∧ (n : Nat) < (declaredNames c.text).length

/-- The machine is Running with `rst` released, and its memory holds the register window. -/
def Ready (s : State) : Prop := s.rst = false ∧ s.runState = .running ∧ 16 ≤ s.memSize

end Sys2Proof.Claims

open Sys2Proof Sys2Proof.Machine Sys2Proof.Claims

/-! ### Encoding -/

/-- Decoding the encoding of a well-formed instruction gives it back, with the text after it (R82, R83). -/
def Obligations.DecodeGivesBackEncoded : Prop :=
  ∀ i, i.wellFormed = true → ∀ rest, Separated i rest → decode (encode i ++ rest) = .ok (i, rest)

/-- No byte of the text is dropped: the decoded instruction is well-formed, its encoding and the rest are the
text, its length is what decoding consumed (R83, R84). -/
def Obligations.EncodeGivesBackDecoded : Prop :=
  ∀ bytes i rest, decode bytes = .ok (i, rest) →
    encode i ++ rest = bytes ∧ i.wellFormed = true ∧ Separated i rest ∧
      lengthOf i + rest.length = bytes.length

/-- R82 with the table of R80: a listed byte selects its row, every other byte selects NOP. -/
def Obligations.EveryByteSelectsItsRow : Prop :=
  (∀ row ∈ ([(0x3E, .incp), (0x3C, .decp), (0x2B, .inc), (0x2D, .dec), (0x2E, .out), (0x2C, .inp),
      (0x5B, .loopOpen), (0x5D, .loopClose), (0x30, .zero), (0x26, .and), (0x7C, .or), (0x5E, .xor),
      (0x7E, .not), (0x23, .shr), (0x40, .shl), (0x41, .add), (0x4D, .mul), (0x53, .sub), (0x44, .div),
      (0x25, .mod), (0x21, .notb), (0x52, .ret), (0x3B, .halt)] : List (Byte × Instr)),
    Encodes row.1 row.2) ∧
  (∀ rest, ∃ l after, decode (0x4A :: rest) = .ok (.jmp l, after)) ∧
  (∀ rest, ∃ l after, decode (0x43 :: rest) = .ok (.call l, after)) ∧
  ∀ b, b ∉ tableBytes → Encodes b (.nop b)

/-- R83, the label operand of `J` and `C`: spaces and tabs are skipped, one `*` is stripped, the name is the
longest run of bytes that are not whitespace. -/
def Obligations.LabelOperandIsParsed : Prop :=
  ∀ bytes, ∃ l rest,
    decode (0x4A :: bytes) = .ok (.jmp l, rest) ∧
    decode (0x43 :: bytes) = .ok (.call l, rest) ∧
    bytes = l.gap ++ (if l.sigil then [0x2A] else []) ++ l.name ++ rest ∧
    (∀ b ∈ l.gap, b = 0x20 ∨ b = 0x09) ∧
    (∀ b t, (if l.sigil then [0x2A] else []) ++ l.name ++ rest = b :: t → b ≠ 0x20 ∧ b ≠ 0x09) ∧
    (l.sigil = false → (l.name ++ rest).head? ≠ some 0x2A) ∧
    (∀ b ∈ l.name, b ∉ ([0x09, 0x0A, 0x0B, 0x0C, 0x0D, 0x20] : List Byte)) ∧
    (rest = [] ∨ ∃ b t, rest = b :: t ∧ b ∈ ([0x09, 0x0A, 0x0B, 0x0C, 0x0D, 0x20] : List Byte))

/-- A few words of the encoding, written out: `>`, `A`, `;`, `1`, `J *loop`, `C s` before LF. -/
def Obligations.WrittenWordsDecode : Prop :=
  decode [0x3E] = .ok (.incp, []) ∧
  decode [0x41] = .ok (.add, []) ∧
  decode [0x3B, 0x2B] = .ok (.halt, [0x2B]) ∧
  decode [0x31] = .ok (.nop 0x31, []) ∧
  decode [0x4A, 0x20, 0x2A, 0x6C, 0x6F, 0x6F, 0x70] = .ok (.jmp ⟨[0x20], true, [0x6C, 0x6F, 0x6F, 0x70]⟩, []) ∧
  decode [0x43, 0x20, 0x73, 0x0A] = .ok (.call ⟨[0x20], false, [0x73]⟩, [0x0A])

/-! ### The step -/

/-- R101: with an instruction at PC, its opcode byte is `Text[PC]`, goes to `M[7]` and to no other byte, and
the instruction then runs. -/
def Obligations.StepRunsDecodedInstruction : Prop :=
  ∀ s i rest, Ready s → decode (s.text.drop s.pc) = .ok (i, rest) →
    ∃ u, step s = exec i u ∧ i.wellFormed = true ∧
      u = { s with mem := u.mem } ∧ s.text[s.pc]? = some (u.readByte 7) ∧ opcodeOf i = u.readByte 7 ∧
      KeepsBytesBut [7] s u

/-- R100: a step is possible only while Running with `rst` released, and at the end of the text it halts and
does nothing else. -/
def Obligations.StepGateAndEndOfText : Prop :=
  ∀ s : State,
    (s.rst = true → ∀ t, step s ≠ .next t) ∧
    (s.runState = .halted → ∀ t, step s ≠ .next t) ∧
    (s.rst = false → s.runState = .running → s.text.length ≤ s.pc →
      step s = .next { s with runState := .halted })

/-- R27, R101: after a step that fetched, `M[7]` holds the fetched byte, unless the instruction itself wrote
there (`DP = 7`, or `D` with `DP = 6`); a step that fetches nothing leaves it. -/
def Obligations.FetchedByteStaysInIr : Prop :=
  ∀ s t, step s = .next t →
    (s.text.length ≤ s.pc → t.mem = s.mem) ∧
    (s.pc < s.text.length → s.dp ≠ 7 → ¬ (s.dp = 6 ∧ s.text[s.pc]? = some 0x44) →
      s.text[s.pc]? = some (t.readByte 7))

/-- R101, R122, R123, R143 at `DP = 7`: the operand is the opcode byte just fetched. -/
def Obligations.IrIsTheOperandAtSeven : Prop :=
  ∀ s, Ready s → s.dp = 7 →
    (s.text[s.pc]? = some 0x2B → ∃ t, step s = .next t ∧ t.readByte 7 = 0x2C) ∧
    (s.text[s.pc]? = some 0x2D → ∃ t, step s = .next t ∧ t.readByte 7 = 0x2C) ∧
    (s.text[s.pc]? = some 0x2E → ∃ t, step s = .next t ∧ t.output = s.output ++ [0x2E])

/-! ### Pointer and cell -/

/-- R120, R121: `>` and `<` move DP by one and wrap at MEM_SIZE, and change nothing else. -/
def Obligations.PointerMovesWrap : Prop :=
  Encodes 0x3E .incp ∧ Encodes 0x3C .decp ∧
  ∀ s : State, s.dp < s.memSize →
    exec .incp s =
      .next { s with dp := if s.dp + 1 = s.memSize then 0 else s.dp + 1, pc := s.pc + 1 } ∧
    exec .decp s =
      .next { s with dp := if s.dp = 0 then s.memSize - 1 else s.dp - 1, pc := s.pc + 1 }

/-- R122, R123, R124: `+` and `-` change the cell by one modulo 256, `0` zeroes it; no flag, no other byte. -/
def Obligations.CellInstructionsWriteTheCell : Prop :=
  Encodes 0x2B .inc ∧ Encodes 0x2D .dec ∧ Encodes 0x30 .zero ∧
  ∀ s : State, s.cellInRange →
    (∃ t, exec .inc s = .next t ∧
      WritesCell (if s.readByte s.dp = 255 then 0 else BitVec.ofNat 8 ((s.readByte s.dp).toNat + 1)) s t) ∧
    (∃ t, exec .dec s = .next t ∧
      WritesCell (if s.readByte s.dp = 0 then 255 else BitVec.ofNat 8 ((s.readByte s.dp).toNat - 1)) s t) ∧
    ∃ t, exec .zero s = .next t ∧ WritesCell 0 s t

/-- The source's property W1: `+` and then `-`, each after its fetch, give the cell back, for `DP ≠ 7`. -/
def Obligations.IncThenDecRestoresTheCell : Prop :=
  ∀ s : State, s.cellInRange → s.dp ≠ 7 →
    ∃ t u, exec .inc (s.writeByte 7 0x2B) = .next t ∧ exec .dec (t.writeByte 7 0x2D) = .next u ∧
      u = { s with mem := u.mem, pc := s.pc + 2 } ∧ KeepsBytesBut [7] s u ∧ u.readByte 7 = 0x2D

/-! ### Input and output -/

/-- R143: `.` sends the cell to the output stream and changes nothing else. -/
def Obligations.OutEmitsTheCell : Prop :=
  Encodes 0x2E .out ∧
  ∀ s : State, s.cellInRange →
    exec .out s = .next { s with output := s.output ++ [s.readByte s.dp], pc := s.pc + 1 }

/-- R54, R39: a step strobes one byte exactly when it executes `.`: the cell, or the opcode byte itself when
DP is 7. -/
def Obligations.OnlyOutStrobesTheOutput : Prop :=
  ∀ s t, step s = .next t →
    s.outStrobe t =
      (if s.text[s.pc]? = some 0x2E then [if s.dp = 7 then 0x2E else s.readByte s.dp] else []) ∧
    t.output = s.output ++ s.outStrobe t

/-- R142, R144: `,` stores the byte the host presents and consumes it; with no byte there is no next state. The
list of the bytes to come is the model's (log entry 3). -/
def Obligations.InStoresThePresentedByte : Prop :=
  Encodes 0x2C .inp ∧
  ∀ s : State,
    (s.input = [] → ∀ t, exec .inp s ≠ .next t) ∧
    ∀ b later, s.input = b :: later → s.cellInRange →
      ∃ t, exec .inp s = .next t ∧
        t = { s with mem := t.mem, pc := s.pc + 1, input := later, inbuf := none } ∧
        t.readByte s.dp = b ∧ KeepsBytesBut [s.dp] s t

/-- R142, R145, R55: at a `,` with no byte there is no step, `in_req` is held, and the next byte the host
presents completes the step. The form of the wait is the model's (log entries 3 and 4). -/
def Obligations.InputWaitEndsWithTheByte : Prop :=
  ∀ s, Ready s → s.dp < s.memSize → s.text[s.pc]? = some 0x2C → s.input = [] →
    step s = .fault .awaitingInput ∧ s.inReq = true ∧
    ∀ b, ∃ t, step (s.presentInput b) = .next t ∧ t.readByte s.dp = b ∧ t.input = [] ∧ t.pc = s.pc + 1

/-! ### Loops -/

/-- R161, R162: `[` with a non-zero cell falls through; with a zero cell it lands one past the matching `]`, or
faults BRACKET_UNMATCHED where there is none. -/
def Obligations.LoopOpenFollowsTheMatch : Prop :=
  Encodes 0x5B .loopOpen ∧
  ∀ s : State, s.cellInRange →
    (s.readByte s.dp ≠ 0 → exec .loopOpen s = .next { s with pc := s.pc + 1 }) ∧
    (s.readByte s.dp = 0 → ∀ m, ForwardMatch s.text s.pc m →
      exec .loopOpen s = .next { s with pc := m + 1 }) ∧
    (s.readByte s.dp = 0 → (∀ m, ¬ ForwardMatch s.text s.pc m) →
      exec .loopOpen s = .next (faulted s .bracketUnmatched))

/-- R161, R163: `]` with a zero cell falls through; with a non-zero cell it lands one past the matching `[`, or
faults BRACKET_UNMATCHED where there is none. -/
def Obligations.LoopCloseFollowsTheMatch : Prop :=
  Encodes 0x5D .loopClose ∧
  ∀ s : State, s.cellInRange →
    (s.readByte s.dp = 0 → exec .loopClose s = .next { s with pc := s.pc + 1 }) ∧
    (s.readByte s.dp ≠ 0 → ∀ m, BackwardMatch s.text s.pc m →
      exec .loopClose s = .next { s with pc := m + 1 }) ∧
    (s.readByte s.dp ≠ 0 → (∀ m, ¬ BackwardMatch s.text s.pc m) →
      exec .loopClose s = .next (faulted s .bracketUnmatched))

/-- The two scans of R161 agree: the bracket a forward scan finds leads the backward scan back, and the other
way round (the source's properties W2 and W3). -/
def Obligations.MatchedBracketsAgree : Prop :=
  ∀ text p m,
    (text[p]? = some (0x5B : Byte) → matchForward text p = some m →
      text[m]? = some 0x5D ∧ matchBackward text m = some p) ∧
    (text[p]? = some (0x5D : Byte) → matchBackward text p = some m →
      text[m]? = some 0x5B ∧ matchForward text m = some p)

/-! ### ALU -/

/-- R187, R188, R189, R195: `~` and `!` complement every bit of the cell, `#` moves every bit one place down,
`@` one place up; the bit shifted out is lost, no flag changes. -/
def Obligations.OneOperandAluActsOnBits : Prop :=
  Encodes 0x7E .not ∧ Encodes 0x21 .notb ∧ Encodes 0x23 .shr ∧ Encodes 0x40 .shl ∧
  ∀ s : State, s.cellInRange →
    (∀ i ∈ [Instr.not, Instr.notb], ∃ v t, exec i s = .next t ∧ WritesCell v s t ∧
      ∀ k, k < 8 → v.getLsbD k = !(s.readByte s.dp).getLsbD k) ∧
    (∃ v t, exec .shr s = .next t ∧ WritesCell v s t ∧
      v.getLsbD 7 = false ∧ ∀ k, k < 7 → v.getLsbD k = (s.readByte s.dp).getLsbD (k + 1)) ∧
    ∃ v t, exec .shl s = .next t ∧ WritesCell v s t ∧
      v.getLsbD 0 = false ∧ ∀ k, k < 7 → v.getLsbD (k + 1) = (s.readByte s.dp).getLsbD k

/-- R184, R185, R186: `&`, `|` and `^` combine the two cells bit by bit into `M[DP]`. -/
def Obligations.BitwiseAluCombinesTheCells : Prop :=
  Encodes 0x26 .and ∧ Encodes 0x7C .or ∧ Encodes 0x5E .xor ∧
  ∀ s : State, s.cellInRange →
    (OnCells .and s fun t => ∃ v, WritesCell v s t ∧ ∀ k, k < 8 →
      v.getLsbD k = ((s.readByte s.dp).getLsbD k && (s.readByte (s.dp + 1)).getLsbD k)) ∧
    (OnCells .or s fun t => ∃ v, WritesCell v s t ∧ ∀ k, k < 8 →
      v.getLsbD k = ((s.readByte s.dp).getLsbD k || (s.readByte (s.dp + 1)).getLsbD k)) ∧
    OnCells .xor s fun t => ∃ v, WritesCell v s t ∧ ∀ k, k < 8 →
      v.getLsbD k = ((s.readByte s.dp).getLsbD k != (s.readByte (s.dp + 1)).getLsbD k)

/-- R182: every two-operand instruction at the top of memory sets IMR and does nothing else, before any other
check. -/
def Obligations.TopOfMemorySetsRangeBit : Prop :=
  ∀ i ∈ twoOperand, ∀ s : State, 16 ≤ s.memSize → s.dp + 1 = s.memSize →
    ∃ t, exec i s = .next t ∧ Suppressed s t

/-- R183, R190, R191, R192: `A`, `M` and `S` write the exact result modulo 256 and set or clear OV. -/
def Obligations.ArithmeticRecordsOverflow : Prop :=
  Encodes 0x41 .add ∧ Encodes 0x4D .mul ∧ Encodes 0x53 .sub ∧
  ∀ s : State, s.cellInRange →
    OnCells .add s (ArithmeticEffect ((s.readByte s.dp).toNat + (s.readByte (s.dp + 1)).toNat) s) ∧
    OnCells .mul s (ArithmeticEffect ((s.readByte s.dp).toNat * (s.readByte (s.dp + 1)).toNat) s) ∧
    OnCells .sub s (ArithmeticEffect ((s.readByte s.dp).toNat - (s.readByte (s.dp + 1)).toNat) s)

/-- R193: `D` with a zero divisor sets DZ (bit 2 of `M[6]`) and leaves both cells; otherwise quotient and
remainder replace the two cells, and no flag changes. -/
def Obligations.DivideGivesQuotientAndRemainder : Prop :=
  Encodes 0x44 .div ∧
  ∀ s : State, s.cellInRange →
    OnCells .div s fun t => FallsThrough s t ∧
      if s.readByte (s.dp + 1) = 0 then
        t.readByte 6 = s.readByte 6 ||| 0x04 ∧ KeepsBytesBut [6] s t
      else
        (t.readByte s.dp).toNat * (s.readByte (s.dp + 1)).toNat + (t.readByte (s.dp + 1)).toNat =
          (s.readByte s.dp).toNat ∧
        (t.readByte (s.dp + 1)).toNat < (s.readByte (s.dp + 1)).toNat ∧
        KeepsBytesBut [s.dp, s.dp + 1] s t

/-- R194: `%` with a zero divisor does nothing; otherwise `M[DP]` takes the remainder. No flag changes. -/
def Obligations.ModulusGivesRemainder : Prop :=
  Encodes 0x25 .mod ∧
  ∀ s : State, s.cellInRange →
    OnCells .mod s fun t =>
      if s.readByte (s.dp + 1) = 0 then t = { s with pc := s.pc + 1 }
      else ∃ v q, WritesCell v s t ∧ v.toNat < (s.readByte (s.dp + 1)).toNat ∧
        q * (s.readByte (s.dp + 1)).toNat + v.toNat = (s.readByte s.dp).toNat

/-! ### Control -/

/-- R238, R240: `J` sets PC to the address of its label, or faults LABEL_UNRESOLVED. -/
def Obligations.JumpGoesToTheLabel : Prop :=
  (∀ rest, ∃ l after, decode (0x4A :: rest) = .ok (.jmp l, after)) ∧
  ∀ l (s : State),
    (∀ t, s.labels.lookup l.name = some t → exec (.jmp l) s = .next { s with pc := t }) ∧
    (s.labels.lookup l.name = none → exec (.jmp l) s = .next (faulted s .labelUnresolved))

/-- R236, R238, R241: `C` resolves its label, checks the stack, pushes the index just past its operand (high
byte at the lower address), and jumps. Every fault comes before any write. -/
def Obligations.CallPushesTheReturnAddress : Prop :=
  (∀ rest, ∃ l after, decode (0x43 :: rest) = .ok (.call l, after)) ∧
  ∀ l (s : State),
    (s.labels.lookup l.name = none → exec (.call l) s = .next (faulted s .labelUnresolved)) ∧
    ∀ t, s.labels.lookup l.name = some t →
      (s.sp < 18 → exec (.call l) s = .next (faulted s .stackOverflow)) ∧
      (18 ≤ s.sp → s.sp ≤ s.memSize → ∃ u, exec (.call l) s = .next u ∧
        u = { s with mem := u.mem, sp := s.sp - 2, pc := t } ∧
        (u.readByte (s.sp - 2)).toNat * 256 + (u.readByte (s.sp - 1)).toNat =
          (s.pc + 1 + l.gap.length + (if l.sigil then 1 else 0) + l.name.length) % 65536 ∧
        KeepsBytesBut [s.sp - 2, s.sp - 1] s u)

/-- R237, R242: `R` takes the two bytes at SP as the new PC, high byte first, and clears nothing; with fewer
than two bytes above SP it faults STACK_UNDERFLOW. -/
def Obligations.ReturnPopsTheAddress : Prop :=
  Encodes 0x52 .ret ∧
  ∀ s : State,
    (s.memSize < s.sp + 2 → exec .ret s = .next (faulted s .stackUnderflow)) ∧
    (s.sp + 2 ≤ s.memSize →
      exec .ret s =
        .next { s with pc := (s.readByte s.sp).toNat * 256 + (s.readByte (s.sp + 1)).toNat, sp := s.sp + 2 })

/-- R243: a `C` that lands on an `R` comes back to the index just past its operand, with SP restored. -/
def Obligations.ReturnComesBackAfterTheCall : Prop :=
  ∀ l (s : State) t, s.labels.lookup l.name = some t → 18 ≤ s.sp → s.sp ≤ s.memSize →
    s.pc + lengthOf (.call l) ≤ 65535 →
    ∃ u v, exec (.call l) s = .next u ∧ exec .ret (u.writeByte 7 0x52) = .next v ∧
      v = { s with mem := v.mem, pc := s.pc + lengthOf (.call l) } ∧
      v.readByte 7 = 0x52 ∧ KeepsBytesBut [7, s.sp - 2, s.sp - 1] s v

/-- R105, R106: `;` halts with PC on itself; every unlisted byte only advances PC. -/
def Obligations.HaltAndNopAct : Prop :=
  Encodes 0x3B .halt ∧ (∀ b, b ∉ tableBytes → Encodes b (.nop b)) ∧
  ∀ s : State,
    exec .halt s = .next { s with runState := .halted } ∧
    ∀ b, exec (.nop b) s = .next { s with pc := s.pc + 1 }

/-! ### Whole-machine rules -/

/-- R262: an instruction that raises a fatal fault writes FAULT, FAULT_PC and STATE and nothing else; R263 says
which instructions raise which. -/
def Obligations.FatalFaultsArePrecise : Prop :=
  ∀ i s t, exec i s = .next t → t.fault ≠ s.fault →
    t = faulted s t.fault ∧
    ((t.fault = .labelUnresolved ∧ ∃ l, i = .jmp l ∨ i = .call l) ∨
      (t.fault = .bracketUnmatched ∧ (i = .loopOpen ∨ i = .loopClose)) ∨
      (t.fault = .stackOverflow ∧ ∃ l, i = .call l) ∨
      (t.fault = .stackUnderflow ∧ i = .ret))

/-- R31, R33, R34, R39: only `>` and `<` write DP, only `C` and `R` write SP, only `;` and the instructions that
can fault halt the machine, only `.` writes the output. R55: only `,` takes an input byte, which is said of the
model's own list of the bytes to come (log entry 3). -/
def Obligations.DedicatedRegistersHaveTheirWriters : Prop :=
  ∀ i s t, exec i s = .next t →
    (t.dp ≠ s.dp → i = .incp ∨ i = .decp) ∧
    (t.sp ≠ s.sp → i = .ret ∨ ∃ l, i = .call l) ∧
    (t.runState ≠ s.runState →
      t.runState = .halted ∧
        (i = .halt ∨ i = .loopOpen ∨ i = .loopClose ∨ i = .ret ∨ ∃ l, i = .jmp l ∨ i = .call l)) ∧
    (t.output ≠ s.output → i = .out) ∧
    (t.input ≠ s.input → i = .inp)

/-- R40, R61, R230: no step changes the program text, the memory size, the label capacity, the label table or
the level of `rst`. -/
def Obligations.StepKeepsTextAndLabels : Prop :=
  ∀ s t, step s = .next t →
    t.text = s.text ∧ t.memSize = s.memSize ∧ t.labelCapacity = s.labelCapacity ∧ t.labels = s.labels ∧
      t.rst = s.rst

/-- R26: where the data opcode does not itself write `M[6]`, only `A`, `M`, `S` change OV, only `D` changes DZ
and only sets it, only a two-operand instruction at the top of memory changes IMR and only sets it, and
nothing changes the other five bits. -/
def Obligations.StatusBitsHaveTheirWriters : Prop :=
  ∀ i s t, exec i s = .next t → s.dp ≠ 6 → s.dp ≠ 5 → ∀ b : StatusBit, t.statusBit b ≠ s.statusBit b →
    (b = .ov ∧ (i = .add ∨ i = .mul ∨ i = .sub)) ∨
    (b = .dz ∧ i = .div ∧ t.statusBit b = true) ∨
    (b = .imr ∧ i ∈ twoOperand ∧ s.dp + 1 = s.memSize ∧ t.statusBit b = true)

/-- R28: with DP in the data region, a step changes no slot of the window but `SR` and `IR`. -/
def Obligations.PlainSlotsHaveNoWriter : Prop :=
  ∀ s t, step s = .next t → 16 ≤ s.dp →
    ∀ w : WindowSlot, w ≠ .statusRegister → w ≠ .instructionRegister → t.slot w = s.slot w

/-! ### The label resolver -/

/-- R231: the lines of a text hold no LF, and joined by LF they are the text. -/
def Obligations.LinesAreSplitAtLf : Prop :=
  ∀ text : List Byte,
    (∀ l ∈ splitLines text, (0x0A : Byte) ∉ l) ∧ splitLines text ≠ [] ∧
      List.intercalate [0x0A] (splitLines text) = text

/-- R232: a line without a colon declares nothing; with one it declares the bytes before the first colon,
without the whitespace around them. -/
def Obligations.LabelLineDeclaresItsName : Prop :=
  ∀ line : List Byte,
    ((0x3A : Byte) ∉ line → declaredName line = none) ∧
    ∀ before after, line = before ++ 0x3A :: after → (0x3A : Byte) ∉ before →
      ∃ lead name trail, declaredName line = some name ∧ before = lead ++ name ++ trail ∧
        (∀ b ∈ lead ++ trail, b ∈ ([0x09, 0x0A, 0x0B, 0x0C, 0x0D, 0x20] : List Byte)) ∧
        (∀ b, name.head? = some b ∨ name.getLast? = some b →
          b ∉ ([0x09, 0x0A, 0x0B, 0x0C, 0x0D, 0x20] : List Byte))

/-- R233, R234: the text is rejected exactly when it declares more names than LABEL_CAPACITY; otherwise the table
maps each declared name, once, to the total length of the lines without a label before its last declaration, and
maps no other name. -/
def Obligations.LabelAddressIsTheAccountedLength : Prop :=
  ∀ cap text,
    (buildLabels cap text = none ↔ ∃ n, cap = some n ∧ (n : Nat) < (declaredNames text).length) ∧
    ∀ lt, buildLabels cap text = some lt →
      (lt.map Prod.fst).Nodup ∧ lt.length = (declaredNames text).length ∧
      (∀ name, name ∉ declaredNames text → lt.lookup name = none) ∧
      ∀ k line name, (splitLines text)[k]? = some line → declaredName line = some name →
        (∀ j line', k < j → (splitLines text)[j]? = some line' → declaredName line' ≠ some name) →
        lt.lookup name =
          some ((((splitLines text).take k).filter fun l => (declaredName l).isNone).map List.length).sum

/-- R37: every address of the table is at most PROG_LEN. -/
def Obligations.LabelAddressesStayInTheText : Prop :=
  ∀ cap text lt, buildLabels cap text = some lt → ∀ e ∈ lt, e.2 ≤ text.length

/-! ### Reset -/

/-- R292: the launch is rejected exactly when MEM_SIZE, PROG_LEN or the number of label names is out of its
range; it then is Halted with FAULT 5, FAULT_PC 0 and no output, and no instruction executes. That it then has no
label table is the model's deduction (log entry 8). -/
def Obligations.IllegalLaunchIsRejected : Prop :=
  ∀ c, (MustReject c →
      (boot c).runState = .halted ∧ (boot c).fault = .configRejected ∧ (boot c).faultPc = 0 ∧
        (boot c).output = [] ∧ (boot c).labels = [] ∧ (boot c).faultCodePort = 5 ∧
        ∀ t, step (boot c) ≠ .next t) ∧
    (¬ MustReject c → (boot c).fault = .noFault)

/-- R41: an accepted launch starts at PC 0 with every byte 0, DP 16 mod MEM_SIZE, SP MEM_SIZE, Running,
no fault, the built label table, an empty buffer and an empty output; a rejected one is Halted with FAULT 5 and
FAULT_PC 0. -/
def Obligations.AcceptedLaunchStartsAtReset : Prop :=
  ∀ c, (MustReject c →
      (boot c).runState = .halted ∧ (boot c).fault = .configRejected ∧ (boot c).faultPc = 0) ∧
    (¬ MustReject c → (∀ a, (boot c).readByte a = 0) ∧ (boot c).pc = 0 ∧ (boot c).dp = 16 % c.memSize ∧
      (boot c).sp = c.memSize ∧ (boot c).runState = .running ∧ (boot c).fault = .noFault ∧
      (boot c).faultPc = 0 ∧ buildLabels c.labelCapacity c.text = some (boot c).labels ∧
      (boot c).inbuf = none ∧ (boot c).output = [] ∧ (boot c).memSize = c.memSize ∧
      (boot c).text = c.text ∧ (boot c).rst = false)

/-- `State.reset` is what the reset sequence leaves for the default memory size and an empty text. The size, the
text and the capacity are the model's choice (log entry 1), the input too (log entry 3). -/
def Obligations.ResetIsTheDefaultLaunch : Prop :=
  State.reset = boot { memSize := 65536, text := [], labelCapacity := none, input := [] }

/-- R291: while `rst` is asserted the ports read 0, no port is valid and no step runs; releasing it runs the reset
sequence, whatever the state was. The form of "no step" is the model's (log entry 6), and so is that a port that is
not valid gives no byte (log entry 10). -/
def Obligations.AssertedResetIdlesThePorts : Prop :=
  ∀ s : State, s.assertRst.haltedPort = false ∧ s.assertRst.faultCodePort = 0 ∧ s.assertRst.faultPcPort = 0 ∧
    s.assertRst.inReq = false ∧ (∀ a, s.assertRst.memReadPort a = none) ∧
    step s.assertRst = .fault .inReset ∧ ∀ c, s.assertRst.releaseRst c = boot c

/-- R56, R57: after a halt of an accepted launch the host reads `halted`, FAULT, FAULT_PC and every byte of
memory, and 0 at or above MEM_SIZE. While Running no byte is valid (the model's form, log entry 10). -/
def Obligations.HostReadsTheHaltedMachine : Prop :=
  ∀ s : State, s.rst = false →
    s.faultCodePort = s.fault.code ∧ (s.faultPc ≤ 65535 → s.faultPcPort.toNat = s.faultPc) ∧
    (s.runState = .running → s.haltedPort = false ∧ ∀ a, s.memReadPort a = none) ∧
    (s.runState = .halted → s.fault ≠ .configRejected → s.haltedPort = true ∧
      ∀ a : BitVec 16,
        (a.toNat < s.memSize → s.memReadPort a = some (s.readByte a.toNat)) ∧
        (s.memSize ≤ a.toNat → s.memReadPort a = some 0))

/-- R55: `in_req` is asserted exactly while a `,` step is under way. -/
def Obligations.InReqMarksTheInputStep : Prop :=
  ∀ s : State, s.inReq = true ↔ s.rst = false ∧ s.runState = .running ∧ s.text[s.pc]? = some 0x2C

/-! ### The invariant -/

/-- Every step keeps the invariant, from every state that has it: the memory canonical and inside MEM_SIZE, PC, DP
and SP in their ranges, SP's parity, the fault registers consistent, the label table as built, INBUF empty. -/
def Obligations.StepKeepsTheInvariant : Prop := ∀ s t : State, s.Inv → step s = .next t → t.Inv

/-- The invariant holds at `State.reset`. -/
def Obligations.ResetHasTheInvariant : Prop := State.reset.Inv

/-- The invariant holds after every accepted launch (R41). -/
def Obligations.AcceptedLaunchHasTheInvariant : Prop := ∀ c, ¬ MustReject c → (boot c).Inv

/-- R66, R104: from a state with the invariant the step answers a next state, except in the stops the spec gives:
`rst` asserted, Halted, a waiting `,`. No access is out of range and no instruction is refused. That these stops
are the faults inReset, halted and awaitingInput is the model's form (log entries 4 and 6), and so is the list of the
input bytes to come (log entry 3). -/
def Obligations.InvariantStatesStepOrStop : Prop :=
  ∀ s : State, s.Inv →
    (s.rst = false ∧ s.runState = .running ∧ ¬ (s.inReq = true ∧ s.input = []) ∧ ∃ t, step s = .next t) ∨
    (s.rst = false ∧ s.runState = .running ∧ s.inReq = true ∧ s.input = [] ∧
      step s = .fault .awaitingInput) ∨
    (s.rst = false ∧ s.runState = .halted ∧ step s = .fault .halted) ∨
    (s.rst = true ∧ step s = .fault .inReset)
end

