-- ==== Sys2Proof/Laws/Labels.lean ====
section
/-! SUPPORT. The label table's operations: what a lookup sees after a declaration (R234, R238). -/

namespace Sys2Proof.Machine

/-- A declaration replaces the address of its own name and leaves every other name alone (R234). -/
@[simp] theorem LabelTable.resolve_declare (lt : LabelTable) (n m : List Byte) (a : Nat) :
    (lt.declare n a).resolve m = if n = m then some a else lt.resolve m := by
  induction lt with
  | nil => simp [LabelTable.declare, LabelTable.resolve]
  | cons e t ih =>
    obtain ⟨k, b⟩ := e
    by_cases hk : k = n
    · subst hk
      by_cases hm : k = m <;> simp [LabelTable.declare, LabelTable.resolve, hm]
    · by_cases hm : k = m
      · subst hm
        simp [LabelTable.declare, LabelTable.resolve, hk, Ne.symm hk]
      · simp [LabelTable.declare, LabelTable.resolve, hk, hm, ih]

/-- A name resolves exactly when it is a key of the table. -/
theorem LabelTable.resolve_eq_none (lt : LabelTable) (n : List Byte) :
    lt.resolve n = none ↔ n ∉ lt.map Prod.fst := by
  induction lt with
  | nil => simp [LabelTable.resolve]
  | cons e t ih =>
    obtain ⟨k, b⟩ := e
    by_cases hk : k = n
    · simp [LabelTable.resolve, hk]
    · rw [LabelTable.resolve, if_neg hk, ih]
      simp [Ne.symm hk]

/-- A new name takes one slot; a name already declared takes none (R234). -/
theorem LabelTable.keys_declare (lt : LabelTable) (n : List Byte) (a : Nat) :
    (lt.declare n a).map Prod.fst =
      if n ∈ lt.map Prod.fst then lt.map Prod.fst else lt.map Prod.fst ++ [n] := by
  induction lt with
  | nil => simp [LabelTable.declare]
  | cons e t ih =>
    obtain ⟨k, b⟩ := e
    by_cases hk : k = n
    · simp [LabelTable.declare, hk]
    · rw [LabelTable.declare, if_neg hk, List.map_cons, ih]
      by_cases hm : n ∈ t.map Prod.fst
      · rw [if_pos hm, if_pos (by simp [hm])]
        rfl
      · rw [if_neg hm, if_neg (by simp [hm, Ne.symm hk])]
        rfl

end Sys2Proof.Machine
end

