-- ==== Sys2Proof/Laws/State.lean ====
section
/-! SUPPORT. What each named update of the state does to each field: one lemma per field per update. -/

namespace Sys2Proof.Machine

variable (s : State)

@[simp] theorem State.writeByte_mem (a : Nat) (b : Byte) : (s.writeByte a b).mem = s.mem.write a b := rfl
@[simp] theorem State.writeByte_pc (a : Nat) (b : Byte) : (s.writeByte a b).pc = s.pc := rfl
@[simp] theorem State.writeByte_dp (a : Nat) (b : Byte) : (s.writeByte a b).dp = s.dp := rfl
@[simp] theorem State.writeByte_sp (a : Nat) (b : Byte) : (s.writeByte a b).sp = s.sp := rfl
@[simp] theorem State.writeByte_runState (a : Nat) (b : Byte) : (s.writeByte a b).runState = s.runState := rfl
@[simp] theorem State.writeByte_fault (a : Nat) (b : Byte) : (s.writeByte a b).fault = s.fault := rfl
@[simp] theorem State.writeByte_faultPc (a : Nat) (b : Byte) : (s.writeByte a b).faultPc = s.faultPc := rfl
@[simp] theorem State.writeByte_labels (a : Nat) (b : Byte) : (s.writeByte a b).labels = s.labels := rfl
@[simp] theorem State.writeByte_inbuf (a : Nat) (b : Byte) : (s.writeByte a b).inbuf = s.inbuf := rfl
@[simp] theorem State.writeByte_output (a : Nat) (b : Byte) : (s.writeByte a b).output = s.output := rfl
@[simp] theorem State.writeByte_memSize (a : Nat) (b : Byte) : (s.writeByte a b).memSize = s.memSize := rfl
@[simp] theorem State.writeByte_text (a : Nat) (b : Byte) : (s.writeByte a b).text = s.text := rfl
@[simp] theorem State.writeByte_labelCapacity (a : Nat) (b : Byte) : (s.writeByte a b).labelCapacity = s.labelCapacity := rfl
@[simp] theorem State.writeByte_input (a : Nat) (b : Byte) : (s.writeByte a b).input = s.input := rfl
@[simp] theorem State.writeByte_rst (a : Nat) (b : Byte) : (s.writeByte a b).rst = s.rst := rfl

@[simp] theorem State.setPc_mem (n : Nat) : (s.setPc n).mem = s.mem := rfl
@[simp] theorem State.setPc_pc (n : Nat) : (s.setPc n).pc = n := rfl
@[simp] theorem State.setPc_dp (n : Nat) : (s.setPc n).dp = s.dp := rfl
@[simp] theorem State.setPc_sp (n : Nat) : (s.setPc n).sp = s.sp := rfl
@[simp] theorem State.setPc_runState (n : Nat) : (s.setPc n).runState = s.runState := rfl
@[simp] theorem State.setPc_fault (n : Nat) : (s.setPc n).fault = s.fault := rfl
@[simp] theorem State.setPc_faultPc (n : Nat) : (s.setPc n).faultPc = s.faultPc := rfl
@[simp] theorem State.setPc_labels (n : Nat) : (s.setPc n).labels = s.labels := rfl
@[simp] theorem State.setPc_inbuf (n : Nat) : (s.setPc n).inbuf = s.inbuf := rfl
@[simp] theorem State.setPc_output (n : Nat) : (s.setPc n).output = s.output := rfl
@[simp] theorem State.setPc_memSize (n : Nat) : (s.setPc n).memSize = s.memSize := rfl
@[simp] theorem State.setPc_text (n : Nat) : (s.setPc n).text = s.text := rfl
@[simp] theorem State.setPc_labelCapacity (n : Nat) : (s.setPc n).labelCapacity = s.labelCapacity := rfl
@[simp] theorem State.setPc_input (n : Nat) : (s.setPc n).input = s.input := rfl
@[simp] theorem State.setPc_rst (n : Nat) : (s.setPc n).rst = s.rst := rfl

@[simp] theorem State.advance_mem : (s.advance).mem = s.mem := rfl
@[simp] theorem State.advance_pc : (s.advance).pc = s.pc + 1 := rfl
@[simp] theorem State.advance_dp : (s.advance).dp = s.dp := rfl
@[simp] theorem State.advance_sp : (s.advance).sp = s.sp := rfl
@[simp] theorem State.advance_runState : (s.advance).runState = s.runState := rfl
@[simp] theorem State.advance_fault : (s.advance).fault = s.fault := rfl
@[simp] theorem State.advance_faultPc : (s.advance).faultPc = s.faultPc := rfl
@[simp] theorem State.advance_labels : (s.advance).labels = s.labels := rfl
@[simp] theorem State.advance_inbuf : (s.advance).inbuf = s.inbuf := rfl
@[simp] theorem State.advance_output : (s.advance).output = s.output := rfl
@[simp] theorem State.advance_memSize : (s.advance).memSize = s.memSize := rfl
@[simp] theorem State.advance_text : (s.advance).text = s.text := rfl
@[simp] theorem State.advance_labelCapacity : (s.advance).labelCapacity = s.labelCapacity := rfl
@[simp] theorem State.advance_input : (s.advance).input = s.input := rfl
@[simp] theorem State.advance_rst : (s.advance).rst = s.rst := rfl

@[simp] theorem State.setDp_mem (n : Nat) : (s.setDp n).mem = s.mem := rfl
@[simp] theorem State.setDp_pc (n : Nat) : (s.setDp n).pc = s.pc := rfl
@[simp] theorem State.setDp_dp (n : Nat) : (s.setDp n).dp = n := rfl
@[simp] theorem State.setDp_sp (n : Nat) : (s.setDp n).sp = s.sp := rfl
@[simp] theorem State.setDp_runState (n : Nat) : (s.setDp n).runState = s.runState := rfl
@[simp] theorem State.setDp_fault (n : Nat) : (s.setDp n).fault = s.fault := rfl
@[simp] theorem State.setDp_faultPc (n : Nat) : (s.setDp n).faultPc = s.faultPc := rfl
@[simp] theorem State.setDp_labels (n : Nat) : (s.setDp n).labels = s.labels := rfl
@[simp] theorem State.setDp_inbuf (n : Nat) : (s.setDp n).inbuf = s.inbuf := rfl
@[simp] theorem State.setDp_output (n : Nat) : (s.setDp n).output = s.output := rfl
@[simp] theorem State.setDp_memSize (n : Nat) : (s.setDp n).memSize = s.memSize := rfl
@[simp] theorem State.setDp_text (n : Nat) : (s.setDp n).text = s.text := rfl
@[simp] theorem State.setDp_labelCapacity (n : Nat) : (s.setDp n).labelCapacity = s.labelCapacity := rfl
@[simp] theorem State.setDp_input (n : Nat) : (s.setDp n).input = s.input := rfl
@[simp] theorem State.setDp_rst (n : Nat) : (s.setDp n).rst = s.rst := rfl

@[simp] theorem State.setSp_mem (n : Nat) : (s.setSp n).mem = s.mem := rfl
@[simp] theorem State.setSp_pc (n : Nat) : (s.setSp n).pc = s.pc := rfl
@[simp] theorem State.setSp_dp (n : Nat) : (s.setSp n).dp = s.dp := rfl
@[simp] theorem State.setSp_sp (n : Nat) : (s.setSp n).sp = n := rfl
@[simp] theorem State.setSp_runState (n : Nat) : (s.setSp n).runState = s.runState := rfl
@[simp] theorem State.setSp_fault (n : Nat) : (s.setSp n).fault = s.fault := rfl
@[simp] theorem State.setSp_faultPc (n : Nat) : (s.setSp n).faultPc = s.faultPc := rfl
@[simp] theorem State.setSp_labels (n : Nat) : (s.setSp n).labels = s.labels := rfl
@[simp] theorem State.setSp_inbuf (n : Nat) : (s.setSp n).inbuf = s.inbuf := rfl
@[simp] theorem State.setSp_output (n : Nat) : (s.setSp n).output = s.output := rfl
@[simp] theorem State.setSp_memSize (n : Nat) : (s.setSp n).memSize = s.memSize := rfl
@[simp] theorem State.setSp_text (n : Nat) : (s.setSp n).text = s.text := rfl
@[simp] theorem State.setSp_labelCapacity (n : Nat) : (s.setSp n).labelCapacity = s.labelCapacity := rfl
@[simp] theorem State.setSp_input (n : Nat) : (s.setSp n).input = s.input := rfl
@[simp] theorem State.setSp_rst (n : Nat) : (s.setSp n).rst = s.rst := rfl

@[simp] theorem State.halt_mem : (s.halt).mem = s.mem := rfl
@[simp] theorem State.halt_pc : (s.halt).pc = s.pc := rfl
@[simp] theorem State.halt_dp : (s.halt).dp = s.dp := rfl
@[simp] theorem State.halt_sp : (s.halt).sp = s.sp := rfl
@[simp] theorem State.halt_runState : (s.halt).runState = .halted := rfl
@[simp] theorem State.halt_fault : (s.halt).fault = s.fault := rfl
@[simp] theorem State.halt_faultPc : (s.halt).faultPc = s.faultPc := rfl
@[simp] theorem State.halt_labels : (s.halt).labels = s.labels := rfl
@[simp] theorem State.halt_inbuf : (s.halt).inbuf = s.inbuf := rfl
@[simp] theorem State.halt_output : (s.halt).output = s.output := rfl
@[simp] theorem State.halt_memSize : (s.halt).memSize = s.memSize := rfl
@[simp] theorem State.halt_text : (s.halt).text = s.text := rfl
@[simp] theorem State.halt_labelCapacity : (s.halt).labelCapacity = s.labelCapacity := rfl
@[simp] theorem State.halt_input : (s.halt).input = s.input := rfl
@[simp] theorem State.halt_rst : (s.halt).rst = s.rst := rfl

@[simp] theorem State.raiseFault_mem (k : FaultCode) : (s.raiseFault k).mem = s.mem := rfl
@[simp] theorem State.raiseFault_pc (k : FaultCode) : (s.raiseFault k).pc = s.pc := rfl
@[simp] theorem State.raiseFault_dp (k : FaultCode) : (s.raiseFault k).dp = s.dp := rfl
@[simp] theorem State.raiseFault_sp (k : FaultCode) : (s.raiseFault k).sp = s.sp := rfl
@[simp] theorem State.raiseFault_runState (k : FaultCode) : (s.raiseFault k).runState = .halted := rfl
@[simp] theorem State.raiseFault_fault (k : FaultCode) : (s.raiseFault k).fault = k := rfl
@[simp] theorem State.raiseFault_faultPc (k : FaultCode) : (s.raiseFault k).faultPc = s.pc := rfl
@[simp] theorem State.raiseFault_labels (k : FaultCode) : (s.raiseFault k).labels = s.labels := rfl
@[simp] theorem State.raiseFault_inbuf (k : FaultCode) : (s.raiseFault k).inbuf = s.inbuf := rfl
@[simp] theorem State.raiseFault_output (k : FaultCode) : (s.raiseFault k).output = s.output := rfl
@[simp] theorem State.raiseFault_memSize (k : FaultCode) : (s.raiseFault k).memSize = s.memSize := rfl
@[simp] theorem State.raiseFault_text (k : FaultCode) : (s.raiseFault k).text = s.text := rfl
@[simp] theorem State.raiseFault_labelCapacity (k : FaultCode) : (s.raiseFault k).labelCapacity = s.labelCapacity := rfl
@[simp] theorem State.raiseFault_input (k : FaultCode) : (s.raiseFault k).input = s.input := rfl
@[simp] theorem State.raiseFault_rst (k : FaultCode) : (s.raiseFault k).rst = s.rst := rfl

@[simp] theorem State.emit_mem (b : Byte) : (s.emit b).mem = s.mem := rfl
@[simp] theorem State.emit_pc (b : Byte) : (s.emit b).pc = s.pc := rfl
@[simp] theorem State.emit_dp (b : Byte) : (s.emit b).dp = s.dp := rfl
@[simp] theorem State.emit_sp (b : Byte) : (s.emit b).sp = s.sp := rfl
@[simp] theorem State.emit_runState (b : Byte) : (s.emit b).runState = s.runState := rfl
@[simp] theorem State.emit_fault (b : Byte) : (s.emit b).fault = s.fault := rfl
@[simp] theorem State.emit_faultPc (b : Byte) : (s.emit b).faultPc = s.faultPc := rfl
@[simp] theorem State.emit_labels (b : Byte) : (s.emit b).labels = s.labels := rfl
@[simp] theorem State.emit_inbuf (b : Byte) : (s.emit b).inbuf = s.inbuf := rfl
@[simp] theorem State.emit_output (b : Byte) : (s.emit b).output = s.output ++ [b] := rfl
@[simp] theorem State.emit_memSize (b : Byte) : (s.emit b).memSize = s.memSize := rfl
@[simp] theorem State.emit_text (b : Byte) : (s.emit b).text = s.text := rfl
@[simp] theorem State.emit_labelCapacity (b : Byte) : (s.emit b).labelCapacity = s.labelCapacity := rfl
@[simp] theorem State.emit_input (b : Byte) : (s.emit b).input = s.input := rfl
@[simp] theorem State.emit_rst (b : Byte) : (s.emit b).rst = s.rst := rfl

@[simp] theorem State.fillInbuf_mem (b : Byte) (l : List Byte) : (s.fillInbuf b l).mem = s.mem := rfl
@[simp] theorem State.fillInbuf_pc (b : Byte) (l : List Byte) : (s.fillInbuf b l).pc = s.pc := rfl
@[simp] theorem State.fillInbuf_dp (b : Byte) (l : List Byte) : (s.fillInbuf b l).dp = s.dp := rfl
@[simp] theorem State.fillInbuf_sp (b : Byte) (l : List Byte) : (s.fillInbuf b l).sp = s.sp := rfl
@[simp] theorem State.fillInbuf_runState (b : Byte) (l : List Byte) : (s.fillInbuf b l).runState = s.runState := rfl
@[simp] theorem State.fillInbuf_fault (b : Byte) (l : List Byte) : (s.fillInbuf b l).fault = s.fault := rfl
@[simp] theorem State.fillInbuf_faultPc (b : Byte) (l : List Byte) : (s.fillInbuf b l).faultPc = s.faultPc := rfl
@[simp] theorem State.fillInbuf_labels (b : Byte) (l : List Byte) : (s.fillInbuf b l).labels = s.labels := rfl
@[simp] theorem State.fillInbuf_inbuf (b : Byte) (l : List Byte) : (s.fillInbuf b l).inbuf = some b := rfl
@[simp] theorem State.fillInbuf_output (b : Byte) (l : List Byte) : (s.fillInbuf b l).output = s.output := rfl
@[simp] theorem State.fillInbuf_memSize (b : Byte) (l : List Byte) : (s.fillInbuf b l).memSize = s.memSize := rfl
@[simp] theorem State.fillInbuf_text (b : Byte) (l : List Byte) : (s.fillInbuf b l).text = s.text := rfl
@[simp] theorem State.fillInbuf_labelCapacity (b : Byte) (l : List Byte) : (s.fillInbuf b l).labelCapacity = s.labelCapacity := rfl
@[simp] theorem State.fillInbuf_input (b : Byte) (l : List Byte) : (s.fillInbuf b l).input = l := rfl
@[simp] theorem State.fillInbuf_rst (b : Byte) (l : List Byte) : (s.fillInbuf b l).rst = s.rst := rfl

@[simp] theorem State.clearInbuf_mem : (s.clearInbuf).mem = s.mem := rfl
@[simp] theorem State.clearInbuf_pc : (s.clearInbuf).pc = s.pc := rfl
@[simp] theorem State.clearInbuf_dp : (s.clearInbuf).dp = s.dp := rfl
@[simp] theorem State.clearInbuf_sp : (s.clearInbuf).sp = s.sp := rfl
@[simp] theorem State.clearInbuf_runState : (s.clearInbuf).runState = s.runState := rfl
@[simp] theorem State.clearInbuf_fault : (s.clearInbuf).fault = s.fault := rfl
@[simp] theorem State.clearInbuf_faultPc : (s.clearInbuf).faultPc = s.faultPc := rfl
@[simp] theorem State.clearInbuf_labels : (s.clearInbuf).labels = s.labels := rfl
@[simp] theorem State.clearInbuf_inbuf : (s.clearInbuf).inbuf = none := rfl
@[simp] theorem State.clearInbuf_output : (s.clearInbuf).output = s.output := rfl
@[simp] theorem State.clearInbuf_memSize : (s.clearInbuf).memSize = s.memSize := rfl
@[simp] theorem State.clearInbuf_text : (s.clearInbuf).text = s.text := rfl
@[simp] theorem State.clearInbuf_labelCapacity : (s.clearInbuf).labelCapacity = s.labelCapacity := rfl
@[simp] theorem State.clearInbuf_input : (s.clearInbuf).input = s.input := rfl
@[simp] theorem State.clearInbuf_rst : (s.clearInbuf).rst = s.rst := rfl

@[simp] theorem State.writeWord_mem (a : Nat) (w : ReturnAddress) : (s.writeWord a w).mem = (s.mem.write a (highByte w)).write (a + 1) (lowByte w) := rfl
@[simp] theorem State.writeWord_pc (a : Nat) (w : ReturnAddress) : (s.writeWord a w).pc = s.pc := rfl
@[simp] theorem State.writeWord_dp (a : Nat) (w : ReturnAddress) : (s.writeWord a w).dp = s.dp := rfl
@[simp] theorem State.writeWord_sp (a : Nat) (w : ReturnAddress) : (s.writeWord a w).sp = s.sp := rfl
@[simp] theorem State.writeWord_runState (a : Nat) (w : ReturnAddress) : (s.writeWord a w).runState = s.runState := rfl
@[simp] theorem State.writeWord_fault (a : Nat) (w : ReturnAddress) : (s.writeWord a w).fault = s.fault := rfl
@[simp] theorem State.writeWord_faultPc (a : Nat) (w : ReturnAddress) : (s.writeWord a w).faultPc = s.faultPc := rfl
@[simp] theorem State.writeWord_labels (a : Nat) (w : ReturnAddress) : (s.writeWord a w).labels = s.labels := rfl
@[simp] theorem State.writeWord_inbuf (a : Nat) (w : ReturnAddress) : (s.writeWord a w).inbuf = s.inbuf := rfl
@[simp] theorem State.writeWord_output (a : Nat) (w : ReturnAddress) : (s.writeWord a w).output = s.output := rfl
@[simp] theorem State.writeWord_memSize (a : Nat) (w : ReturnAddress) : (s.writeWord a w).memSize = s.memSize := rfl
@[simp] theorem State.writeWord_text (a : Nat) (w : ReturnAddress) : (s.writeWord a w).text = s.text := rfl
@[simp] theorem State.writeWord_labelCapacity (a : Nat) (w : ReturnAddress) : (s.writeWord a w).labelCapacity = s.labelCapacity := rfl
@[simp] theorem State.writeWord_input (a : Nat) (w : ReturnAddress) : (s.writeWord a w).input = s.input := rfl
@[simp] theorem State.writeWord_rst (a : Nat) (w : ReturnAddress) : (s.writeWord a w).rst = s.rst := rfl

@[simp] theorem State.setBit_mem (k : StatusBit) (c : Bool) : (s.setBit k c).mem = s.mem.write Config.srAddr (withBit (s.readByte Config.srAddr) k.index c) := rfl
@[simp] theorem State.setBit_pc (k : StatusBit) (c : Bool) : (s.setBit k c).pc = s.pc := rfl
@[simp] theorem State.setBit_dp (k : StatusBit) (c : Bool) : (s.setBit k c).dp = s.dp := rfl
@[simp] theorem State.setBit_sp (k : StatusBit) (c : Bool) : (s.setBit k c).sp = s.sp := rfl
@[simp] theorem State.setBit_runState (k : StatusBit) (c : Bool) : (s.setBit k c).runState = s.runState := rfl
@[simp] theorem State.setBit_fault (k : StatusBit) (c : Bool) : (s.setBit k c).fault = s.fault := rfl
@[simp] theorem State.setBit_faultPc (k : StatusBit) (c : Bool) : (s.setBit k c).faultPc = s.faultPc := rfl
@[simp] theorem State.setBit_labels (k : StatusBit) (c : Bool) : (s.setBit k c).labels = s.labels := rfl
@[simp] theorem State.setBit_inbuf (k : StatusBit) (c : Bool) : (s.setBit k c).inbuf = s.inbuf := rfl
@[simp] theorem State.setBit_output (k : StatusBit) (c : Bool) : (s.setBit k c).output = s.output := rfl
@[simp] theorem State.setBit_memSize (k : StatusBit) (c : Bool) : (s.setBit k c).memSize = s.memSize := rfl
@[simp] theorem State.setBit_text (k : StatusBit) (c : Bool) : (s.setBit k c).text = s.text := rfl
@[simp] theorem State.setBit_labelCapacity (k : StatusBit) (c : Bool) : (s.setBit k c).labelCapacity = s.labelCapacity := rfl
@[simp] theorem State.setBit_input (k : StatusBit) (c : Bool) : (s.setBit k c).input = s.input := rfl
@[simp] theorem State.setBit_rst (k : StatusBit) (c : Bool) : (s.setBit k c).rst = s.rst := rfl

@[simp] theorem State.presentInput_mem (b : Byte) : (s.presentInput b).mem = s.mem := rfl
@[simp] theorem State.presentInput_pc (b : Byte) : (s.presentInput b).pc = s.pc := rfl
@[simp] theorem State.presentInput_dp (b : Byte) : (s.presentInput b).dp = s.dp := rfl
@[simp] theorem State.presentInput_sp (b : Byte) : (s.presentInput b).sp = s.sp := rfl
@[simp] theorem State.presentInput_runState (b : Byte) : (s.presentInput b).runState = s.runState := rfl
@[simp] theorem State.presentInput_fault (b : Byte) : (s.presentInput b).fault = s.fault := rfl
@[simp] theorem State.presentInput_faultPc (b : Byte) : (s.presentInput b).faultPc = s.faultPc := rfl
@[simp] theorem State.presentInput_labels (b : Byte) : (s.presentInput b).labels = s.labels := rfl
@[simp] theorem State.presentInput_inbuf (b : Byte) : (s.presentInput b).inbuf = s.inbuf := rfl
@[simp] theorem State.presentInput_output (b : Byte) : (s.presentInput b).output = s.output := rfl
@[simp] theorem State.presentInput_memSize (b : Byte) : (s.presentInput b).memSize = s.memSize := rfl
@[simp] theorem State.presentInput_text (b : Byte) : (s.presentInput b).text = s.text := rfl
@[simp] theorem State.presentInput_labelCapacity (b : Byte) : (s.presentInput b).labelCapacity = s.labelCapacity := rfl
@[simp] theorem State.presentInput_input (b : Byte) : (s.presentInput b).input = s.input ++ [b] := rfl
@[simp] theorem State.presentInput_rst (b : Byte) : (s.presentInput b).rst = s.rst := rfl

end Sys2Proof.Machine
end

