-- ==== Sys2Proof/Laws/Memory.lean ====
section
/-! SUPPORT. The laws of the data memory: a read after a write, the canonical form kept by every write, and
equal reads of canonical memories making them equal. -/

namespace Sys2Proof.Machine

open Sys2Proof


theorem Memory.read_filter_same (m : Memory) (a : Nat) :
    read (m.filter (·.1 ≠ a)) a = Config.unlistedByte := by
  induction m with
  | nil => rfl
  | cons c t ih =>
    obtain ⟨k, v⟩ := c
    by_cases h : k = a
    · simpa [List.filter_cons, h] using ih
    · simpa [List.filter_cons, h, read] using ih

theorem Memory.read_filter_other (m : Memory) {a a' : Nat} (h : a' ≠ a) :
    read (m.filter (·.1 ≠ a)) a' = read m a' := by
  induction m with
  | nil => rfl
  | cons c t ih =>
    obtain ⟨k, v⟩ := c
    by_cases hk : k = a
    · subst hk
      simpa [List.filter_cons, read, Ne.symm h] using ih
    · by_cases hk' : k = a'
      · simp [read, hk', h]
      · simpa [List.filter_cons, read, hk, hk'] using ih

theorem Memory.read_insert_same (m : Memory) (a : Nat) (b : Byte) (h : ∀ c ∈ m, c.1 ≠ a) :
    read (insert m a b) a = b := by
  induction m with
  | nil => simp [insert, read]
  | cons c t ih =>
    obtain ⟨k, v⟩ := c
    have hk : k ≠ a := h (k, v) (by simp)
    have ht := ih fun c hc => h c (by simp [hc])
    by_cases hlt : a < k <;> simp [insert, hlt, read, hk, ht]

theorem Memory.read_insert_other (m : Memory) {a a' : Nat} (b : Byte) (h : a' ≠ a) :
    read (insert m a b) a' = read m a' := by
  induction m with
  | nil => simp [insert, read, Ne.symm h]
  | cons c t ih =>
    obtain ⟨k, v⟩ := c
    by_cases hlt : a < k <;> simp [insert, hlt, read, Ne.symm h, ih]

/-- Reading back what was written. -/
theorem Memory.read_write_same (m : Memory) (a : Nat) (b : Byte) : read (write m a b) a = b := by
  unfold write
  split
  · next h => rw [read_filter_same, h]
  · exact read_insert_same _ _ _ (by simp)

/-- A write leaves every other address alone. -/
theorem Memory.read_write_other (m : Memory) {a a' : Nat} (b : Byte) (h : a' ≠ a) :
    read (write m a b) a' = read m a' := by
  unfold write
  split
  · exact read_filter_other m h
  · rw [read_insert_other _ _ h, read_filter_other m h]

/-- Everything a write does to a read. -/
@[simp] theorem Memory.read_write (m : Memory) (a a' : Nat) (b : Byte) :
    read (write m a b) a' = if a = a' then b else read m a' := by
  split
  · next h => exact h ▸ read_write_same m a b
  · next h => exact read_write_other m b (Ne.symm h)

theorem Memory.mem_insert {m : Memory} {a : Nat} {b : Byte} {c : Host.Cell} :
    c ∈ insert m a b ↔ c = (a, b) ∨ c ∈ m := by
  induction m with
  | nil => simp [insert]
  | cons d t ih =>
    obtain ⟨k, v⟩ := d
    by_cases hlt : a < k
    · simp [insert, hlt]
    · simp only [insert, hlt, if_false, List.mem_cons, ih]
      tauto

/-- A write lists no address but the old ones and its own. -/
theorem Memory.mem_write {m : Memory} {a : Nat} {b : Byte} {c : Host.Cell} (h : c ∈ write m a b) :
    c = (a, b) ∨ c ∈ m := by
  unfold write at h
  split at h
  · exact .inr (List.mem_filter.mp h).1
  · exact (mem_insert.mp h).imp_right fun hc => (List.mem_filter.mp hc).1

theorem Memory.pairwise_insert {m : Memory} {a : Nat} {b : Byte} (hs : m.Pairwise (·.1 < ·.1))
    (h : ∀ c ∈ m, c.1 ≠ a) : (insert m a b).Pairwise (·.1 < ·.1) := by
  induction m with
  | nil => simp [insert]
  | cons d t ih =>
    obtain ⟨k, v⟩ := d
    have hd := List.pairwise_cons.mp hs
    by_cases hlt : a < k
    · simp only [insert, hlt, if_true]
      refine List.pairwise_cons.mpr ⟨fun c hc => ?_, hs⟩
      rcases List.mem_cons.mp hc with rfl | hc
      · exact hlt
      · exact Nat.lt_trans hlt (hd.1 c hc)
    · simp only [insert, hlt, if_false]
      refine List.pairwise_cons.mpr
        ⟨fun c hc => ?_, ih hd.2 fun c hc => h c (by simp [hc])⟩
      rcases mem_insert.mp hc with rfl | hc
      · have : k ≠ a := h (k, v) (by simp)
        show k < a
        omega
      · exact hd.1 c hc

/-- The empty memory is canonical. -/
theorem Memory.wf_nil : wf [] := by simp [wf]

/-- A write keeps the canonical form. -/
theorem Memory.wf_write {m : Memory} (h : m.wf) (a : Nat) (b : Byte) : wf (write m a b) := by
  have hf : Memory.wf (m.filter (·.1 ≠ a)) :=
    ⟨h.1.filter _, fun c hc => h.2 c (List.mem_filter.mp hc).1⟩
  unfold write
  split
  · exact hf
  · next hb =>
    refine ⟨pairwise_insert hf.1 (by simp), fun c hc => ?_⟩
    rcases mem_insert.mp hc with rfl | hc
    · exact hb
    · exact hf.2 c hc

/-- An address below every listed one reads as unlisted. -/
theorem Memory.read_of_lt {m : Memory} {a : Nat} (h : ∀ c ∈ m, a < c.1) : read m a = Config.unlistedByte := by
  induction m with
  | nil => rfl
  | cons c t ih =>
    obtain ⟨k, v⟩ := c
    have hk : a < k := h (k, v) (by simp)
    simpa [read, Nat.ne_of_gt hk] using ih fun c hc => h c (by simp [hc])

/-- Canonical memories that read the same are the same data. -/
theorem Memory.ext_of_wf {m m' : Memory} (h : m.wf) (h' : m'.wf) (e : ∀ a, read m a = read m' a) : m = m' := by
  induction m generalizing m' with
  | nil =>
    cases m' with
    | nil => rfl
    | cons c t =>
      obtain ⟨k, v⟩ := c
      exact absurd (by simpa [read] using (e k).symm) (h'.2 (k, v) (by simp))
  | cons c t ih =>
    obtain ⟨k, v⟩ := c
    cases m' with
    | nil => exact absurd (by simpa [read] using e k) (h.2 (k, v) (by simp))
    | cons c' t' =>
      obtain ⟨k', v'⟩ := c'
      have hp := List.pairwise_cons.mp h.1
      have hp' := List.pairwise_cons.mp h'.1
      have hv : v ≠ Config.unlistedByte := h.2 (k, v) (by simp)
      have hv' : v' ≠ Config.unlistedByte := h'.2 (k', v') (by simp)
      have hk : k = k' := by
        rcases Nat.lt_trichotomy k k' with hlt | heq | hgt
        · have := e k
          rw [read_of_lt (m := (k', v') :: t')] at this
          · exact absurd (by simpa [read] using this) hv
          · intro c hc
            rcases List.mem_cons.mp hc with rfl | hc
            · exact hlt
            · exact Nat.lt_trans hlt (hp'.1 c hc)
        · exact heq
        · have := e k'
          rw [read_of_lt (m := (k, v) :: t)] at this
          · exact absurd (by simpa [read] using this.symm) hv'
          · intro c hc
            rcases List.mem_cons.mp hc with rfl | hc
            · exact hgt
            · exact Nat.lt_trans hgt (hp.1 c hc)
      subst hk
      have hvv : v = v' := by simpa [read] using e k
      subst hvv
      congr 1
      refine ih ⟨hp.2, fun c hc => h.2 c (by simp [hc])⟩ ⟨hp'.2, fun c hc => h'.2 c (by simp [hc])⟩
        fun a => ?_
      by_cases ha : k = a
      · subst ha
        rw [read_of_lt hp.1, read_of_lt hp'.1]
      · simpa [read, ha] using e a



section

variable (s : State)

/-- Everything a byte write does to a byte read. -/
@[simp] theorem State.readByte_writeByte (a a' : Nat) (b : Byte) :
    (s.writeByte a b).readByte a' = if a = a' then b else s.readByte a' :=
  Memory.read_write s.mem a a' b

@[simp] theorem State.readByte_setPc (n a : Nat) : (s.setPc n).readByte a = s.readByte a := rfl
@[simp] theorem State.readByte_advance (a : Nat) : s.advance.readByte a = s.readByte a := rfl
@[simp] theorem State.readByte_setDp (n a : Nat) : (s.setDp n).readByte a = s.readByte a := rfl
@[simp] theorem State.readByte_setSp (n a : Nat) : (s.setSp n).readByte a = s.readByte a := rfl
@[simp] theorem State.readByte_halt (a : Nat) : s.halt.readByte a = s.readByte a := rfl
@[simp] theorem State.readByte_raiseFault (k : FaultCode) (a : Nat) :
    (s.raiseFault k).readByte a = s.readByte a := rfl
@[simp] theorem State.readByte_emit (b : Byte) (a : Nat) : (s.emit b).readByte a = s.readByte a := rfl
@[simp] theorem State.readByte_fillInbuf (b : Byte) (l : List Byte) (a : Nat) :
    (s.fillInbuf b l).readByte a = s.readByte a := rfl
@[simp] theorem State.readByte_clearInbuf (a : Nat) : s.clearInbuf.readByte a = s.readByte a := rfl
@[simp] theorem State.readByte_presentInput (b : Byte) (a : Nat) :
    (s.presentInput b).readByte a = s.readByte a := rfl

/-- A two-byte write: the high byte at the lower address, the low byte after it (R63). -/
@[simp] theorem State.readByte_writeWord (addr a : Nat) (w : ReturnAddress) :
    (s.writeWord addr w).readByte a =
      if addr + 1 = a then lowByte w else if addr = a then highByte w else s.readByte a := by
  simp [State.writeWord]

/-- `SetBit` changes the Status Register and no other byte (R11). -/
@[simp] theorem State.readByte_setBit (k : StatusBit) (c : Bool) (a : Nat) :
    (s.setBit k c).readByte a =
      if Config.srAddr = a then withBit (s.readByte Config.srAddr) k.index c else s.readByte a :=
  State.readByte_writeByte _ _ _ _

end

/-- Every named write keeps the canonical form of the memory. -/
theorem State.wf_writeByte {s : State} (h : s.mem.wf) (a : Nat) (b : Byte) : (s.writeByte a b).mem.wf :=
  Memory.wf_write h a b

theorem State.wf_writeWord {s : State} (h : s.mem.wf) (a : Nat) (w : ReturnAddress) :
    (s.writeWord a w).mem.wf :=
  Memory.wf_write (Memory.wf_write h _ _) _ _

theorem State.wf_setBit {s : State} (h : s.mem.wf) (k : StatusBit) (c : Bool) : (s.setBit k c).mem.wf :=
  Memory.wf_write h _ _

/-- The memory after reset is canonical. -/
theorem State.wf_reset : State.reset.mem.wf := Memory.wf_nil


/-- A bit of a byte with one bit replaced. -/
@[simp] theorem getLsbD_withBit (v : Byte) (k j : Nat) (c : Bool) (hj : j < 8) :
    (withBit v k c).getLsbD j = if j = k then c else v.getLsbD j := by
  by_cases h : j = k
  · subst h
    cases c <;> simp [withBit, hj]
  · rcases Nat.lt_or_gt_of_ne h with hlt | hgt
    · cases c <;> simp [withBit, hj, h, hlt]
    · have h0 : j - k ≠ 0 := by omega
      cases c <;> simp [withBit, hj, h, Nat.not_lt.mpr (Nat.le_of_lt hgt), h0]

/-- The same bit, read by index. -/
@[simp] theorem getElem_withBit (v : Byte) (k j : Nat) (c : Bool) (hj : j < 8) :
    (withBit v k c)[j] = if j = k then c else v[j] := by
  rw [← BitVec.getLsbD_eq_getElem, getLsbD_withBit v k j c hj, BitVec.getLsbD_eq_getElem hj]

end Sys2Proof.Machine
end

