-- ==== Sys2Proof/Laws/Ops.lean ====
section
/-! SUPPORT. One lemma per shared operation that says once everything it can do when it answers a next state;
later proofs cite these instead of unfolding the operations. -/

namespace Sys2Proof.Machine

variable {s t : State}

theorem State.withCell_next {k : Byte → Result} :
    s.withCell k = .next t ↔ s.cellInRange ∧ k s.cell = .next t := by
  unfold State.withCell
  split
  · next h => exact (and_iff_right h).symm
  · next h => exact iff_of_false nofun fun hk => h hk.1

theorem State.updateCell_next {f : Byte → Byte} :
    s.updateCell f = .next t ↔ s.cellInRange ∧ t = (s.writeByte s.dp (f s.cell)).advance := by
  simp [State.updateCell, State.withCell_next, eq_comm (a := t)]

theorem State.withCells_next {k : Byte → Byte → Result} :
    s.withCells k = .next t ↔
      s.cellInRange ∧
        ((s.dp + 1 = s.memSize ∧ t = (s.setBit .imr true).advance) ∨
          (s.dp + 1 < s.memSize ∧ k s.cell s.nextCell = .next t)) := by
  unfold State.withCells
  split
  · next h =>
    rw [and_iff_right h]
    split
    · next h' => simp [h', eq_comm (a := t)]
    · next h' =>
      have : s.dp + 1 < s.memSize := by
        have := h.2
        omega
      simp [h', this]
  · next h => exact iff_of_false nofun fun hk => h hk.1

theorem State.combineCells_next {f : Byte → Byte → Byte} :
    s.combineCells f = .next t ↔
      s.cellInRange ∧
        ((s.dp + 1 = s.memSize ∧ t = (s.setBit .imr true).advance) ∨
          (s.dp + 1 < s.memSize ∧ t = (s.writeByte s.dp (f s.cell s.nextCell)).advance)) := by
  simp [State.combineCells, State.withCells_next, eq_comm (a := t)]

theorem State.arithmetic_next {f : Byte → Byte → Int} :
    s.arithmetic f = .next t ↔
      s.cellInRange ∧
        ((s.dp + 1 = s.memSize ∧ t = (s.setBit .imr true).advance) ∨
          (s.dp + 1 < s.memSize ∧
            t = ((s.writeByte s.dp (narrow (f s.cell s.nextCell))).setBit .ov
              (wraps (f s.cell s.nextCell))).advance)) := by
  simp [State.arithmetic, State.withCells_next, eq_comm (a := t)]

theorem State.takeInput_next {k : Byte → State → Result} :
    s.takeInput k = .next t ↔
      ∃ b later, s.input = b :: later ∧ k b (s.fillInbuf b later).clearInbuf = .next t := by
  unfold State.takeInput
  cases h : s.input <;> simp

theorem State.push_next {a : ReturnAddress} {k : State → Result} :
    s.push a k = .next t ↔
      (s.sp < 18 ∧ t = s.raiseFault .stackOverflow) ∨
        (18 ≤ s.sp ∧ s.sp ≤ s.memSize ∧ k ((s.setSp (s.sp - 2)).writeWord (s.sp - 2) a) = .next t) := by
  unfold State.push
  split
  · next h =>
    have : s.sp < 18 := h
    simp [this, eq_comm (a := t)]
  · next h =>
    have : 18 ≤ s.sp := Nat.le_of_not_lt h
    split <;> simp_all

theorem State.pop_next {k : ReturnAddress → State → Result} :
    s.pop k = .next t ↔
      (s.memSize < s.sp + 2 ∧ t = s.raiseFault .stackUnderflow) ∨
        (s.sp + 2 ≤ s.memSize ∧ k (s.readWord s.sp) (s.setSp (s.sp + 2)) = .next t) := by
  unfold State.pop
  split
  · next h => simp [h, Nat.not_le.mpr h, eq_comm (a := t)]
  · next h => simp [h, Nat.le_of_not_lt h]

theorem State.resolve_next {name : List Byte} {k : Nat → Result} :
    s.resolve name k = .next t ↔
      (s.labels.resolve name = none ∧ t = s.raiseFault .labelUnresolved) ∨
        ∃ a, s.labels.resolve name = some a ∧ k a = .next t := by
  unfold State.resolve
  cases h : s.labels.resolve name <;> simp [eq_comm (a := t)]

theorem State.landPast_next {matched : Option Nat} :
    s.landPast matched = .next t ↔
      (matched = none ∧ t = s.raiseFault .bracketUnmatched) ∨
        ∃ m, matched = some m ∧ t = s.setPc (m + 1) := by
  cases matched <;> simp [State.landPast, eq_comm (a := t)]

theorem State.latchIr_next {op : Byte} {k : State → Result} :
    s.latchIr op k = .next t ↔
      Config.windowSize ≤ s.memSize ∧ k (s.writeByte Config.irAddr op) = .next t := by
  unfold State.latchIr
  split <;> simp_all

/-- No byte is left exactly at the end of the text. -/
theorem State.ahead_eq_nil : s.ahead = [] ↔ s.text.length ≤ s.pc := List.drop_eq_nil_iff

/-- Decoding fails only where there is no byte (R86). -/
theorem decode_error {bytes : List Byte} {e : DecodeError} : decode bytes = .error e ↔ bytes = [] := by
  cases bytes <;> cases e <;> simp [decode]

/-- Everything a step can do when it answers a next state (R100 to R103). -/
theorem step_next :
    step s = .next t ↔
      s.rst = false ∧ s.runState = .running ∧
        ((s.text.length ≤ s.pc ∧ t = s.halt) ∨
          ∃ i rest, decode s.ahead = .ok (i, rest) ∧ Config.windowSize ≤ s.memSize ∧
            exec i (s.writeByte Config.irAddr (opcodeOf i)) = .next t) := by
  unfold step State.cycle
  cases hr : s.rst with
  | true => simp
  | false =>
    cases hs : s.runState with
    | halted => simp
    | running =>
      cases hd : decode s.ahead with
      | error e =>
        have := State.ahead_eq_nil.mp (decode_error.mp hd)
        simp [this, eq_comm (a := t)]
      | ok p =>
        have : ¬ s.text.length ≤ s.pc := fun h => by
          rw [State.ahead_eq_nil.mpr h] at hd
          cases hd
        obtain ⟨i, rest⟩ := p
        simp [this, State.latchIr_next]

end Sys2Proof.Machine
end

