-- ==== Sys2Proof/Laws/PerInstr.lean ====
section
/-! SUPPORT. Statements made per instruction: one lemma per constructor of Instr. -/

/-- Decoding the opcode byte of an instruction gives an instruction with that opcode byte, whatever follows
in the text (R82). -/
def Sys2Proof.Laws.OpcodeKept.Statement (i : Sys2Proof.Instr) : Prop :=
  ∀ rest, Sys2Proof.opcodeOf (Sys2Proof.decodeOp (Sys2Proof.opcodeOf i) rest).1 = Sys2Proof.opcodeOf i

/-- The same for any byte. -/
theorem Sys2Proof.Laws.opcodeOf_decodeOp (b : Sys2Proof.Byte) (rest : List Sys2Proof.Byte) :
    Sys2Proof.opcodeOf (Sys2Proof.decodeOp b rest).1 = b := by
  unfold Sys2Proof.decodeOp
  split
  · next i h =>
    have key : ∀ b' : Sys2Proof.Byte, (Sys2Proof.formatB.lookup b').all (Sys2Proof.opcodeOf · = b') := by
      decide
    simpa [h] using key b
  · split
    · next h => exact h.symm
    · split
      · next h => exact h.symm
      · rfl

theorem Sys2Proof.Laws.OpcodeKept.incp : Statement .incp := opcodeOf_decodeOp _
theorem Sys2Proof.Laws.OpcodeKept.decp : Statement .decp := opcodeOf_decodeOp _
theorem Sys2Proof.Laws.OpcodeKept.inc : Statement .inc := opcodeOf_decodeOp _
theorem Sys2Proof.Laws.OpcodeKept.dec : Statement .dec := opcodeOf_decodeOp _
theorem Sys2Proof.Laws.OpcodeKept.out : Statement .out := opcodeOf_decodeOp _
theorem Sys2Proof.Laws.OpcodeKept.inp : Statement .inp := opcodeOf_decodeOp _
theorem Sys2Proof.Laws.OpcodeKept.loopOpen : Statement .loopOpen := opcodeOf_decodeOp _
theorem Sys2Proof.Laws.OpcodeKept.loopClose : Statement .loopClose := opcodeOf_decodeOp _
theorem Sys2Proof.Laws.OpcodeKept.zero : Statement .zero := opcodeOf_decodeOp _
theorem Sys2Proof.Laws.OpcodeKept.and : Statement .and := opcodeOf_decodeOp _
theorem Sys2Proof.Laws.OpcodeKept.or : Statement .or := opcodeOf_decodeOp _
theorem Sys2Proof.Laws.OpcodeKept.xor : Statement .xor := opcodeOf_decodeOp _
theorem Sys2Proof.Laws.OpcodeKept.not : Statement .not := opcodeOf_decodeOp _
theorem Sys2Proof.Laws.OpcodeKept.shr : Statement .shr := opcodeOf_decodeOp _
theorem Sys2Proof.Laws.OpcodeKept.shl : Statement .shl := opcodeOf_decodeOp _
theorem Sys2Proof.Laws.OpcodeKept.add : Statement .add := opcodeOf_decodeOp _
theorem Sys2Proof.Laws.OpcodeKept.mul : Statement .mul := opcodeOf_decodeOp _
theorem Sys2Proof.Laws.OpcodeKept.sub : Statement .sub := opcodeOf_decodeOp _
theorem Sys2Proof.Laws.OpcodeKept.div : Statement .div := opcodeOf_decodeOp _
theorem Sys2Proof.Laws.OpcodeKept.mod : Statement .mod := opcodeOf_decodeOp _
theorem Sys2Proof.Laws.OpcodeKept.notb : Statement .notb := opcodeOf_decodeOp _
theorem Sys2Proof.Laws.OpcodeKept.jmp (l : Sys2Proof.LabelOperand) : Statement (.jmp l) := opcodeOf_decodeOp _
theorem Sys2Proof.Laws.OpcodeKept.call (l : Sys2Proof.LabelOperand) : Statement (.call l) := opcodeOf_decodeOp _
theorem Sys2Proof.Laws.OpcodeKept.ret : Statement .ret := opcodeOf_decodeOp _
theorem Sys2Proof.Laws.OpcodeKept.halt : Statement .halt := opcodeOf_decodeOp _
theorem Sys2Proof.Laws.OpcodeKept.nop (b : Sys2Proof.Byte) : Statement (.nop b) := opcodeOf_decodeOp _
end

