-- ==== Sys2Proof/Tests/Slice0.lean ====
section
/-! SUPPORT. Tests. Expected results come from spec/95_test_vectors.md (section or row named) or from the rule
named; the witnesses show states and operands that meet the hypotheses of the obligations. -/

namespace Sys2Proof.Tests

open Sys2Proof Sys2Proof.Machine Sys2Proof.Claims

/-- The common start state of spec/95_test_vectors.md, MEM_SIZE 64, with a text and memory contents. -/
def machine (text : List Byte) (mem : Memory) : State :=
  { State.reset with
    mem := mem, sp := 64, memSize := 64, text := text, labels := (buildLabels none text).getD [] }

/-- What a test looks at in the next state. -/
def seen {α : Type} (r : Result) (look : State → α) : Option α :=
  match r with
  | .next t => some (look t)
  | .fault _ => none
  | .refused _ => none

/-! ### WellFormed: each check refuses an ill-formed term -/

theorem test_wf_gap : (Instr.jmp ⟨[0x61], false, [0x62]⟩).wellFormed = false := by decide
theorem test_wf_name : (Instr.call ⟨[], false, [0x61, 0x0A]⟩).wellFormed = false := by decide
theorem test_wf_sigil : (Instr.jmp ⟨[], false, [0x2A, 0x61]⟩).wellFormed = false := by decide
theorem test_wf_nop : (Instr.nop 0x2B).wellFormed = false := by decide
theorem test_wf_accepts : (Instr.jmp ⟨[0x20], true, [0x2A, 0x61]⟩).wellFormed = true := by decide

/-! ### Decode: the word of every row of R80, written out bit by bit -/

theorem test_decode_incp : decodeTableWord 8 0b00111110 = some .incp := by decide
theorem test_decode_decp : decodeTableWord 8 0b00111100 = some .decp := by decide
theorem test_decode_inc : decodeTableWord 8 0b00101011 = some .inc := by decide
theorem test_decode_dec : decodeTableWord 8 0b00101101 = some .dec := by decide
theorem test_decode_out : decodeTableWord 8 0b00101110 = some .out := by decide
theorem test_decode_inp : decodeTableWord 8 0b00101100 = some .inp := by decide
theorem test_decode_loopOpen : decodeTableWord 8 0b01011011 = some .loopOpen := by decide
theorem test_decode_loopClose : decodeTableWord 8 0b01011101 = some .loopClose := by decide
theorem test_decode_zero : decodeTableWord 8 0b00110000 = some .zero := by decide
theorem test_decode_and : decodeTableWord 8 0b00100110 = some .and := by decide
theorem test_decode_or : decodeTableWord 8 0b01111100 = some .or := by decide
theorem test_decode_xor : decodeTableWord 8 0b01011110 = some .xor := by decide
theorem test_decode_not : decodeTableWord 8 0b01111110 = some .not := by decide
theorem test_decode_shr : decodeTableWord 8 0b00100011 = some .shr := by decide
theorem test_decode_shl : decodeTableWord 8 0b01000000 = some .shl := by decide
theorem test_decode_add : decodeTableWord 8 0b01000001 = some .add := by decide
theorem test_decode_mul : decodeTableWord 8 0b01001101 = some .mul := by decide
theorem test_decode_sub : decodeTableWord 8 0b01010011 = some .sub := by decide
theorem test_decode_div : decodeTableWord 8 0b01000100 = some .div := by decide
theorem test_decode_mod : decodeTableWord 8 0b00100101 = some .mod := by decide
theorem test_decode_notb : decodeTableWord 8 0b00100001 = some .notb := by decide
theorem test_decode_ret : decodeTableWord 8 0b01010010 = some .ret := by decide
theorem test_decode_halt : decodeTableWord 8 0b00111011 = some .halt := by decide
theorem test_decode_nop : decodeTableWord 8 0b01100001 = some (.nop 0x61) := by decide

/-- `J *loop`, its second byte in bits 15 to 8 (2.6). -/
theorem test_decode_jmp : decodeTableWord 56 0x706F6F6C2A204A =
    some (.jmp ⟨[0x20], true, [0x6C, 0x6F, 0x6F, 0x70]⟩) := by decide

/-- `C s` before LF. -/
theorem test_decode_call : decodeTableWord 32 0x0A732043 = some (.call ⟨[0x20], false, [0x73]⟩) := by decide

/-- `J **x` strips one sigil; its length is 5 (2.6). -/
theorem test_decode_one_sigil : decode [0x4A, 0x20, 0x2A, 0x2A, 0x78] =
    .ok (.jmp ⟨[0x20], true, [0x2A, 0x78]⟩, []) ∧
    lengthOf (.jmp ⟨[0x20], true, [0x2A, 0x78]⟩) = 5 := ⟨rfl, by decide⟩

/-- `J` and a tab: the name ends at a space (2.6). -/
theorem test_decode_tab_gap : decode [0x4A, 0x20, 0x09, 0x66, 0x20, 0x62] =
    .ok (.jmp ⟨[0x20, 0x09], false, [0x66]⟩, [0x20, 0x62]) := rfl

/-- `J` before LF has the empty name (2.6). -/
theorem test_decode_empty_name : decode [0x4A, 0x0A, 0x78] = .ok (.jmp ⟨[], false, []⟩, [0x0A, 0x78]) := rfl

/-- The text's end refuses by name. -/
theorem test_decode_end : decode [] = .error .endOfText := rfl

/-! ### One step of each instruction -/

/-- 2.1 -/
theorem test_incp_wraps :
    seen (exec .incp { machine [] [] with dp := 63 }) (fun t => (t.dp, t.pc)) = some (0, 1) := by decide

/-- 2.1 -/
theorem test_decp_wraps :
    seen (exec .decp { machine [] [] with dp := 0 }) (fun t => (t.dp, t.pc)) = some (63, 1) := by decide

/-- 2.1: the window is reached -/
theorem test_decp_enters_window : seen (exec .decp (machine [] [])) State.dp = some 15 := by decide

/-- 2.1, and the status persistence of 2.5 -/
theorem test_inc_wraps : seen (exec .inc (machine [] [(6, 5), (16, 255)]))
    (fun t => (t.readByte 16, t.sr, t.pc)) = some (0, 5, 1) := by decide

/-- 2.1 -/
theorem test_dec_wraps :
    seen (exec .dec (machine [] [])) (fun t => (t.readByte 16, t.sr)) = some (255, 0) := by decide

/-- 2.1 -/
theorem test_zero : seen (exec .zero { machine [] [(6, 0x84)] with dp := 6 }) State.sr = some 0 := by decide

/-- 2.1: the whole step at `DP = 7` -/
theorem test_step_inc_at_ir :
    seen (step { machine [0x2B] [] with dp := 7 }) State.ir = some 0x2C := by decide

/-- 2.2 -/
theorem test_out : seen (exec .out (machine [] [(16, 5)])) (fun t => (t.output, t.readByte 16, t.pc)) =
    some ([5], 5, 1) := by decide

/-- 2.2 -/
theorem test_in : seen (exec .inp { machine [] [] with input := [0x41, 0x42] })
    (fun t => (t.readByte 16, t.input, t.readByte 3)) = some (0x41, [0x42], 0) := by decide

/-- 2.2: every status bit -/
theorem test_in_sr : seen (exec .inp { machine [] [] with input := [0xFF], dp := 6 })
    (fun t => (t.statusBit .uf, t.statusBit .imal)) = some (true, true) := by decide

/-- W2: the outer match -/
theorem test_loopOpen_nested :
    seen (exec .loopOpen (machine [0x5B, 0x5B, 0x5D, 0x5D] [])) State.pc = some 4 := by decide

/-- 2.3: BRACKET_UNMATCHED -/
theorem test_loopOpen_unmatched : seen (exec .loopOpen (machine [0x5B, 0x5B, 0x5D] []))
    (fun t => (t.fault, t.faultPc, t.pc, t.runState)) = some (.bracketUnmatched, 0, 0, .halted) := by decide

/-- W3: `+[[]]` with PC at 4 -/
theorem test_loopClose_nested :
    seen (exec .loopClose { machine [0x2B, 0x5B, 0x5B, 0x5D, 0x5D] [(16, 1)] with pc := 4 }) State.pc =
      some 2 := by decide

/-- 2.3: `+]` -/
theorem test_loopClose_unmatched : seen (exec .loopClose { machine [0x2B, 0x5D] [(16, 1)] with pc := 1 })
    (fun t => (t.fault, t.faultPc)) = some (.bracketUnmatched, 1) := by decide

/-- 2.4 -/
theorem test_and : seen (exec .and (machine [] [(16, 0xF0), (17, 0x3C)]))
    (fun t => (t.readByte 16, t.readByte 17)) = some (0x30, 0x3C) := by decide

/-- 2.4 -/
theorem test_or : seen (exec .or (machine [] [(16, 0xF0), (17, 0x3C)])) (·.readByte 16) = some 0xFC := by decide

/-- 2.4 -/
theorem test_xor : seen (exec .xor (machine [] [(16, 0xF0), (17, 0x3C)])) (·.readByte 16) = some 0xCC := by decide

/-- 2.4 -/
theorem test_not : seen (exec .not (machine [] [(16, 0xA5)])) (·.readByte 16) = some 0x5A := by decide

/-- 2.5: one operand at the top of memory -/
theorem test_not_top : seen (exec .not { machine [] [] with dp := 63 })
    (fun t => (t.readByte 63, t.sr)) = some (0xFF, 0) := by decide

/-- 2.4 -/
theorem test_notb : seen (exec .notb (machine [] [(16, 0xFF)])) (·.readByte 16) = some 0 := by decide

/-- 2.4 -/
theorem test_shr : seen (exec .shr (machine [] [(16, 0x81)])) (fun t => (t.readByte 16, t.sr)) =
    some (0x40, 0) := by decide

/-- 2.4 -/
theorem test_shl : seen (exec .shl (machine [] [(16, 0x81)])) (fun t => (t.readByte 16, t.sr)) =
    some (0x02, 0) := by decide

/-- 2.5: OV cleared, DZ kept -/
theorem test_add_clears_ov : seen (exec .add (machine [] [(6, 5), (16, 1), (17, 1)]))
    (fun t => (t.readByte 16, t.sr)) = some (2, 4) := by decide

/-- 2.5: `A` at `DP = 6`, `b` the fetched opcode -/
theorem test_step_add_at_sr : seen (step { machine [0x41] [(6, 4)] with dp := 6 })
    (fun t => (t.sr, t.ir)) = some (0x44, 0x41) := by decide

/-- 2.5 -/
theorem test_mul : seen (exec .mul (machine [] [(16, 255), (17, 255)]))
    (fun t => (t.readByte 16, t.readByte 17, t.sr)) = some (1, 255, 1) := by decide

/-- 2.5 -/
theorem test_sub : seen (exec .sub (machine [] [(16, 3), (17, 5)]))
    (fun t => (t.readByte 16, t.readByte 17, t.sr)) = some (254, 5, 1) := by decide

/-- 2.5 -/
theorem test_div : seen (exec .div (machine [] [(16, 200), (17, 13)]))
    (fun t => (t.readByte 16, t.readByte 17, t.sr)) = some (15, 5, 0) := by decide

/-- W5 -/
theorem test_div_by_zero : seen (exec .div (machine [] [(16, 5)]))
    (fun t => (t.readByte 16, t.readByte 17, t.sr)) = some (5, 0, 4) := by decide

/-- 2.5 -/
theorem test_mod : seen (exec .mod (machine [] [(16, 200), (17, 13)]))
    (fun t => (t.readByte 16, t.readByte 17, t.sr)) = some (5, 13, 0) := by decide

/-- 2.5: no DZ -/
theorem test_mod_by_zero :
    seen (exec .mod (machine [] [(16, 5)])) (fun t => (t.readByte 16, t.sr)) = some (5, 0) := by decide

/-- 2.5, top of memory: IMR set, OV not rewritten -/
theorem test_add_top : seen (exec .add { machine [] [(6, 1), (63, 9)] with dp := 63 })
    (fun t => (t.readByte 63, t.sr, t.pc)) = some (9, 0x81, 1) := by decide

/-- 2.9: `J e`, `+`, `e:` jumps to 4 -/
theorem test_step_jmp :
    seen (step (machine [0x4A, 0x20, 0x65, 0x0A, 0x2B, 0x0A, 0x65, 0x3A] [])) (fun t => (t.pc, t.ir)) =
      some (4, 0x4A) := by decide

/-- 2.9: `J nowhere` -/
theorem test_step_jmp_unresolved : seen (step (machine [0x4A, 0x20, 0x6E] []))
    (fun t => (t.fault, t.faultPc, t.pc, t.ir)) = some (.labelUnresolved, 0, 0, 0x4A) := by decide

/-- P3, step 8: `C s` pushes 10 and goes to 13 -/
theorem test_call : seen (exec (.call ⟨[0x20], false, [0x73]⟩)
      { machine [] [] with pc := 7, labels := [([0x73], 13)] })
    (fun t => (t.pc, t.sp, t.readByte 62, t.readByte 63)) = some (13, 62, 0x00, 0x0A) := by decide

/-- 2.8: SP = 17 -/
theorem test_call_overflow : seen (exec (.call ⟨[0x20], false, [0x73]⟩)
      { machine [] [] with sp := 17, labels := [([0x73], 13)] })
    (fun t => (t.fault, t.sp, t.pc)) = some (.stackOverflow, 17, 0) := by decide

/-- P3, step 15: the popped entry is not cleared -/
theorem test_ret : seen (exec .ret { machine [] [(62, 1), (63, 0x0A)] with sp := 62 })
    (fun t => (t.pc, t.sp, t.readByte 63)) = some (266, 64, 0x0A) := by decide

/-- 2.8: SP = 63 -/
theorem test_ret_underflow : seen (exec .ret { machine [] [] with sp := 63 })
    (fun t => (t.fault, t.sp)) = some (.stackUnderflow, 63) := by decide

/-- 2.10: `;` -/
theorem test_halt : seen (step { machine [0x2B, 0x3B, 0x2B] [] with pc := 1 })
    (fun t => (t.pc, t.ir, t.fault, t.runState)) = some (1, 0x3B, .noFault, .halted) := by decide

/-- 2.10: `x` -/
theorem test_nop : seen (step (machine [0x78] []))
    (fun t => (t.pc, t.mem)) = some (1, [(7, 0x78)]) := by decide

/-- 2.10: the empty text -/
theorem test_step_empty_text : seen (step (machine [] [])) (fun t => (t.runState, t.pc, t.ir)) =
    some (.halted, 0, 0) := by decide

/-! ### The pre-pass and the reset sequence -/

/-- 2.7: LF not counted -/
theorem test_labels_lf_not_counted :
    buildLabels none [0x2B, 0x2B, 0x0A, 0x2B, 0x2B, 0x2B, 0x0A, 0x62, 0x3A] = some [([0x62], 5)] := by decide

/-- 2.7: the last declaration wins -/
theorem test_labels_last_wins :
    buildLabels none [0x61, 0x3A, 0x0A, 0x2B, 0x0A, 0x61, 0x3A] = some [([0x61], 1)] := by decide

/-- 2.7: trimmed, CR counted -/
theorem test_labels_trimmed :
    buildLabels none [0x2B, 0x0D, 0x0A, 0x20, 0x78, 0x20, 0x3A, 0x2B] = some [([0x78], 2)] := by decide

/-- 2.11: MEM_SIZE 16 -/
theorem test_boot_smallest : (boot ⟨16, [], none, []⟩).dp = 0 ∧ (boot ⟨16, [], none, []⟩).sp = 16 := by decide

/-- 2.11: LABEL_CAPACITY 1 -/
theorem test_boot_capacity : (boot ⟨64, [0x61, 0x3A, 0x0A, 0x62, 0x3A], some 1, []⟩).fault = .configRejected ∧
    (boot ⟨64, [0x61, 0x3A, 0x0A, 0x61, 0x3A], some 1, []⟩).fault = .noFault := by decide

/-- R291: `halted` reads 0 under an asserted `rst`, even after a halt. -/
theorem test_rst_after_halt : (machine [] []).halt.haltedPort = true ∧
    (machine [] []).halt.assertRst.haltedPort = false := ⟨rfl, rfl⟩

/-- The table word runs as the first instruction. -/
theorem test_withFetchWord :
    seen (step (State.reset.withFetchWord 8 0x2B)) (fun t => (t.readByte 16, t.pc)) = some (1, 1) := by decide

/-! ### Witnesses: the hypotheses of the obligations are met -/

theorem witness_DecodeGivesBackEncoded :
    (Instr.jmp ⟨[0x20], true, [0x61]⟩).wellFormed = true ∧
    Separated (.jmp ⟨[0x20], true, [0x61]⟩) [0x0A, 0x2B] ∧
    (Instr.call ⟨[], false, []⟩).wellFormed = true ∧ Separated (.call ⟨[], false, []⟩) [0x0A] ∧
    Separated (.call ⟨[], false, []⟩) [] ∧ (Instr.nop 0).wellFormed = true ∧ Separated (.nop 0) [0x2B] :=
  ⟨by decide, .inr ⟨_, _, rfl, by decide, by decide⟩, by decide, .inr ⟨_, _, rfl, by decide, by decide⟩,
    .inl rfl, by decide, trivial⟩

theorem witness_EncodeGivesBackDecoded :
    decode [0x4A, 0x20, 0x61, 0x0A] = .ok (.jmp ⟨[0x20], false, [0x61]⟩, [0x0A]) := rfl

theorem witness_EveryByteSelectsItsRow :
    (0x00 : Byte) ∉ tableBytes ∧ (0x31 : Byte) ∉ tableBytes ∧ (0xFF : Byte) ∉ tableBytes := by decide

theorem witness_StepRunsDecodedInstruction :
    Ready (machine [0x31, 0x2B] []) ∧ decode ((machine [0x31, 0x2B] []).text.drop 0) = .ok (.nop 0x31, [0x2B]) :=
  ⟨by unfold Ready; decide, rfl⟩

theorem witness_StepGateAndEndOfText :
    (machine [] []).assertRst.rst = true ∧
    ((machine [0x2B] []).halt.rst = false ∧ (machine [0x2B] []).halt.runState = .halted) ∧
    ((machine [] []).rst = false ∧ (machine [] []).runState = .running ∧ (machine [] []).text.length ≤ 0) :=
  ⟨rfl, by decide, by decide⟩

theorem witness_FetchedByteStaysInIr :
    (seen (step (machine [] [])) State.pc = some 0 ∧ (machine [] []).text.length ≤ 0) ∧
    (seen (step { machine [0x2B] [] with dp := 6 }) State.pc = some 1 ∧ (6 : Nat) ≠ 7 ∧
      ¬ ((6 : Nat) = 6 ∧ (machine [0x2B] []).text[0]? = some 0x44)) := by decide

theorem witness_IrIsTheOperandAtSeven :
    Ready { machine [0x2B] [] with dp := 7 } ∧ Ready { machine [0x2D] [] with dp := 7 } ∧
      Ready { machine [0x2E] [] with dp := 7 } := by unfold Ready; decide

theorem witness_PointerMovesWrap :
    ({ machine [] [] with dp := 63 } : State).dp < 64 ∧ ({ machine [] [] with dp := 0 } : State).dp < 64 := by
  decide

/-- Of every obligation whose hypothesis is that the cell exists, at both ends of memory. -/
theorem witness_cellInRange :
    ({ machine [] [] with dp := 0 } : State).cellInRange ∧ ({ machine [] [] with dp := 63 } : State).cellInRange :=
  by decide

theorem witness_IncThenDecRestoresTheCell :
    (machine [] []).cellInRange ∧ (machine [] []).dp ≠ 7 := by decide

theorem witness_OnlyOutStrobesTheOutput :
    seen (step { machine [0x2E] [] with dp := 7 }) State.output = some [0x2E] ∧
    seen (step (machine [0x2E] [(16, 9)])) State.output = some [9] ∧
    seen (step (machine [0x2B] [])) State.output = some [] := by decide

theorem witness_InStoresThePresentedByte :
    (machine [] []).input = [] ∧
    ({ machine [] [] with input := [1], dp := 63 } : State).cellInRange := by decide

theorem witness_InputWaitEndsWithTheByte :
    Ready (machine [0x2C] []) ∧ (machine [0x2C] []).dp < (machine [0x2C] []).memSize ∧
      (machine [0x2C] []).text[0]? = some 0x2C ∧ (machine [0x2C] []).input = [] := by unfold Ready; decide

/-- `[]` matches; a lone `[` does not; a non-zero cell. -/
theorem witness_LoopOpenFollowsTheMatch :
    ((machine [] [(16, 1)]).cellInRange ∧ (machine [] [(16, 1)]).readByte 16 ≠ 0) ∧
    ((machine [0x5B, 0x5D] []).readByte 16 = 0 ∧ ForwardMatch [0x5B, 0x5D] 0 1) ∧
    ((machine [0x5B] []).readByte 16 = 0 ∧ ∀ m, ¬ ForwardMatch [0x5B] 0 m) := by
  refine ⟨by decide, ⟨by decide, by decide, by decide, by decide, fun j _ h => ?_⟩, by decide, fun m h => ?_⟩
  · obtain rfl : j = 0 := by omega
    decide
  · obtain ⟨h1, h2, -⟩ := h
    simp at h2
    omega

/-- `[]` matches; a lone `]` does not; a zero cell. -/
theorem witness_LoopCloseFollowsTheMatch :
    ((machine [] []).cellInRange ∧ (machine [] []).readByte 16 = 0) ∧
    ((machine [0x5B, 0x5D] [(16, 1)]).readByte 16 ≠ 0 ∧ BackwardMatch [0x5B, 0x5D] 1 0) ∧
    ((machine [0x5D] [(16, 1)]).readByte 16 ≠ 0 ∧ ∀ m, ¬ BackwardMatch [0x5D] 0 m) := by
  refine ⟨by decide, ⟨by decide, by decide, by decide, fun j _ h => ?_⟩, by decide, fun m h => ?_⟩
  · obtain rfl : j = 1 := by omega
    decide
  · exact absurd h.1 (by omega)

theorem witness_MatchedBracketsAgree :
    (([0x5B, 0x5D] : List Byte)[0]? = some 0x5B ∧ matchForward [0x5B, 0x5D] 0 = some 1) ∧
    (([0x5B, 0x5D] : List Byte)[1]? = some 0x5D ∧ matchBackward [0x5B, 0x5D] 1 = some 0) := by decide

/-- Of every obligation on two-operand instructions: the top of memory, and the address below it. -/
theorem witness_OnCells :
    (({ machine [] [] with dp := 63 } : State).cellInRange ∧ (63 : Nat) + 1 = (machine [] []).memSize) ∧
    (({ machine [] [] with dp := 62 } : State).cellInRange ∧ (62 : Nat) + 1 < (machine [] []).memSize) ∧
    Instr.mod ∈ twoOperand ∧ 16 ≤ (machine [] []).memSize := by decide

/-- Of the clauses of R193 and R194: a zero divisor and another. -/
theorem witness_divisors :
    (machine [] [(16, 5)]).readByte 17 = 0 ∧ (machine [] [(16, 5), (17, 255)]).readByte 17 ≠ 0 := by decide

theorem witness_JumpGoesToTheLabel :
    (machine [0x61, 0x3A] []).labels.lookup [0x61] = some 0 ∧
    (machine [0x61, 0x3A] []).labels.lookup [0x62] = none := by decide

/-- The label unresolved; SP 17; SP 18; SP at the top of memory. -/
theorem witness_CallPushesTheReturnAddress :
    (machine [] []).labels.lookup [0x61] = none ∧
    (machine [0x61, 0x3A] []).labels.lookup [0x61] = some 0 ∧
    ({ machine [0x61, 0x3A] [] with sp := 17 } : State).sp < 18 ∧
    (18 ≤ ({ machine [0x61, 0x3A] [] with sp := 18 } : State).sp ∧ 18 ≤ (machine [0x61, 0x3A] []).memSize) ∧
    (18 ≤ (machine [0x61, 0x3A] []).sp ∧ (machine [0x61, 0x3A] []).sp ≤ (machine [0x61, 0x3A] []).memSize) := by
  decide

/-- SP one short of an entry, and exactly one entry. -/
theorem witness_ReturnPopsTheAddress :
    (machine [] []).memSize < ({ machine [] [] with sp := 63 } : State).sp + 2 ∧
    ({ machine [] [] with sp := 62 } : State).sp + 2 ≤ (machine [] []).memSize := by decide

theorem witness_ReturnComesBackAfterTheCall :
    (machine [0x61, 0x3A] []).labels.lookup [0x61] = some 0 ∧ 18 ≤ (machine [0x61, 0x3A] []).sp ∧
      (machine [0x61, 0x3A] []).sp ≤ (machine [0x61, 0x3A] []).memSize ∧
      (machine [0x61, 0x3A] []).pc + lengthOf (.call ⟨[0x20], false, [0x61]⟩) ≤ 65535 := by decide

/-- One fatal fault of each kind. -/
theorem witness_FatalFaultsArePrecise :
    seen (exec (.jmp ⟨[], false, []⟩) (machine [] [])) State.fault = some .labelUnresolved ∧
    seen (exec .loopOpen (machine [0x5B] [])) State.fault = some .bracketUnmatched ∧
    seen (exec (.call ⟨[], false, [0x61]⟩) { machine [0x61, 0x3A] [] with sp := 17 }) State.fault =
      some .stackOverflow ∧
    seen (exec .ret (machine [] [])) State.fault = some .stackUnderflow := by decide

/-- Each register of the statement changes under its writer. -/
theorem witness_DedicatedRegistersHaveTheirWriters :
    seen (exec .incp (machine [] [])) State.dp = some 17 ∧
    seen (exec (.call ⟨[], false, [0x61]⟩) (machine [0x61, 0x3A] [])) State.sp = some 62 ∧
    seen (exec .halt (machine [] [])) State.runState = some .halted ∧
    seen (exec .out (machine [] [])) State.output = some [0] ∧
    seen (exec .inp { machine [] [] with input := [1] }) State.input = some [] := by decide

theorem witness_StepKeepsTextAndLabels : seen (step (machine [0x2B] [])) State.text = some [0x2B] := by decide

/-- OV, DZ and IMR each change under one of their writers. -/
theorem witness_StatusBitsHaveTheirWriters :
    (machine [] []).dp ≠ 6 ∧ (machine [] []).dp ≠ 5 ∧
    seen (exec .add (machine [] [(16, 255), (17, 1)])) (·.statusBit .ov) = some true ∧
    seen (exec .div (machine [] [])) (·.statusBit .dz) = some true ∧
    seen (exec .and { machine [] [] with dp := 63 }) (·.statusBit .imr) = some true := by decide

theorem witness_PlainSlotsHaveNoWriter :
    seen (step (machine [0x2B] [])) (·.slot .temp3) = some 0 ∧ 16 ≤ (machine [0x2B] []).dp := by decide

theorem witness_LabelLineDeclaresItsName :
    (0x3A : Byte) ∉ ([0x2B] : List Byte) ∧
    ([0x20, 0x61, 0x3A, 0x3A] : List Byte) = [0x20, 0x61] ++ 0x3A :: [0x3A] ∧
    (0x3A : Byte) ∉ ([0x20, 0x61] : List Byte) := by decide

/-- The text `+`, `a:`: its line 1 is the last that declares the name; `b` is declared by none. -/
theorem witness_LabelAddressIsTheAccountedLength :
    buildLabels (some 1) [0x2B, 0x0A, 0x61, 0x3A] = some [([0x61], 1)] ∧
    (splitLines [0x2B, 0x0A, 0x61, 0x3A])[1]? = some [0x61, 0x3A] ∧ declaredName [0x61, 0x3A] = some [0x61] ∧
    (splitLines [0x2B, 0x0A, 0x61, 0x3A]).length = 2 ∧
    ([0x62] : List Byte) ∉ declaredNames [0x2B, 0x0A, 0x61, 0x3A] := by decide

theorem witness_LabelAddressesStayInTheText :
    ([0x61], 1) ∈ (buildLabels none [0x2B, 0x0A, 0x61, 0x3A]).getD [] := by decide

/-- Each way to be rejected, at its boundary (2.11). -/
theorem witness_IllegalLaunchIsRejected :
    MustReject ⟨15, [], none, []⟩ ∧ MustReject ⟨65537, [], none, []⟩ ∧
    MustReject ⟨64, List.replicate 65536 0, none, []⟩ ∧
    MustReject ⟨64, [0x61, 0x3A, 0x0A, 0x62, 0x3A], some 1, []⟩ :=
  ⟨.inl (by decide), .inr (.inl (by decide)), .inr (.inr (.inl (lt_of_lt_of_eq (by decide) List.length_replicate.symm))),
    .inr (.inr (.inr ⟨1, rfl, by decide⟩))⟩

/-- A launch that is not rejected, at both bounds of MEM_SIZE and at the capacity (2.11). -/
theorem witness_AcceptedLaunch :
    ¬ MustReject ⟨16, [0x61, 0x3A, 0x0A, 0x61, 0x3A], some 1, []⟩ ∧ ¬ MustReject ⟨65536, [], none, []⟩ := by
  constructor
  · rintro (h | h | h | ⟨n, hn, h⟩)
    · exact absurd h (by decide)
    · exact absurd h (by decide)
    · exact absurd h (by decide)
    · cases hn
      exact absurd h (by decide)
  · rintro (h | h | h | ⟨n, hn, h⟩)
    · exact absurd h (by decide)
    · exact absurd h (by decide)
    · exact absurd h (by decide)
    · cases hn

theorem witness_HostReadsTheHaltedMachine :
    ((machine [] []).rst = false ∧ (machine [] []).runState = .running) ∧
    ((machine [] []).halt.rst = false ∧ (machine [] []).halt.runState = .halted ∧
      (machine [] []).halt.fault ≠ .configRejected ∧ (machine [] []).halt.faultPc ≤ 65535 ∧
      (63#16).toNat < (machine [] []).halt.memSize ∧ (machine [] []).halt.memSize ≤ (64#16).toNat) := by decide

/-- A running state with the invariant whose step answers a next state. -/
theorem witness_StepKeepsTheInvariant :
    (machine [0x2B] [(6, 5), (20, 1)]).Inv ∧
      seen (step (machine [0x2B] [(6, 5), (20, 1)])) State.pc = some 1 :=
  ⟨by constructor <;> decide, by decide⟩

/-- The three kinds of states with the invariant that have no step: a waiting `,`, Halted, `rst` asserted. -/
theorem witness_InvariantStatesStepOrStop :
    ((machine [0x2C] []).Inv ∧ (machine [0x2C] []).inReq = true ∧ (machine [0x2C] []).input = []) ∧
    ((machine [0x2C] []).halt.Inv ∧ (machine [0x2C] []).halt.runState = .halted) ∧
    (({ machine [0x2C] [] with rst := true } : State).Inv) :=
  ⟨⟨by constructor <;> decide, by decide, by decide⟩, ⟨by constructor <;> decide, by decide⟩,
    by constructor <;> decide⟩

end Sys2Proof.Tests
end

/-! # State: what an instruction can do, and what every step keeps -/

section
/-! SUPPORT. The inversion of the dispatch: one case per kind of effect an instruction has when it answers a
next state. -/

namespace Sys2Proof.Machine

open Sys2Proof Sys2Proof.Claims

/-- The instructions that replace their cell and set no flag when they do. -/
def cellWriters : List Instr :=
  [.inc, .dec, .zero, .not, .notb, .shr, .shl, .and, .or, .xor, .mod]

/-- Which instruction raises which fatal fault (R263). -/
inductive Raises : Instr → FaultCode → Prop where
  | jmp (l : LabelOperand) : Raises (.jmp l) .labelUnresolved
  | callUnresolved (l : LabelOperand) : Raises (.call l) .labelUnresolved
  | callOverflow (l : LabelOperand) : Raises (.call l) .stackOverflow
  | loopOpen : Raises .loopOpen .bracketUnmatched
  | loopClose : Raises .loopClose .bracketUnmatched
  | ret : Raises .ret .stackUnderflow

/-- The kinds of effect an instruction can have on the state it runs in: which updates it makes, under which
conditions. Which byte an ALU instruction writes stays open. -/
inductive Effect (s : State) : Instr → State → Prop where
  /-- Nothing but the fall-through (R102). -/
  | fallThrough {i : Instr} (hi : i = .loopOpen ∨ i = .loopClose ∨ i = .mod ∨ ∃ b, i = .nop b) :
      Effect s i s.advance
  /-- The data pointer moves within the memory (R120, R121). -/
  | movePointer {i : Instr} {n : Nat} (hi : i = .incp ∨ i = .decp) (hn : 0 < s.memSize → n < s.memSize) :
      Effect s i (s.setDp n).advance
  /-- The cell is replaced (R122 to R124, R184 to R189, R194, R195). -/
  | writeCell {i : Instr} {v : Byte} (hi : i ∈ cellWriters) (hs : s.cellInRange) :
      Effect s i (s.writeByte s.dp v).advance
  /-- A two-operand instruction at the top of memory (R182). -/
  | suppress {i : Instr} (hi : i ∈ twoOperand) (hs : s.cellInRange) (hd : s.dp + 1 = s.memSize) :
      Effect s i (s.setBit .imr true).advance
  /-- The cell takes an exact result modulo 256, then OV is recorded (R183, R190 to R192). -/
  | arithmetic {i : Instr} {v : Byte} {c : Bool} (hi : i = .add ∨ i = .mul ∨ i = .sub)
      (hs : s.cellInRange) (hd : s.dp + 1 < s.memSize) :
      Effect s i ((s.writeByte s.dp v).setBit .ov c).advance
  /-- `D` with a zero divisor (R193). -/
  | divideByZero (hs : s.cellInRange) (hd : s.dp + 1 < s.memSize) :
      Effect s .div (s.setBit .dz true).advance
  /-- `D` with another divisor (R193). -/
  | divide {q r : Byte} (hs : s.cellInRange) (hd : s.dp + 1 < s.memSize) :
      Effect s .div ((s.writeByte s.dp q).writeByte (s.dp + 1) r).advance
  /-- The cell goes to the output stream (R143). -/
  | emit (hs : s.cellInRange) : Effect s .out (s.emit s.cell).advance
  /-- The byte the host presents passes through INBUF into the cell (R142, R144). -/
  | takeInput {b : Byte} {later : List Byte} (hin : s.input = b :: later) (hs : s.cellInRange) :
      Effect s .inp ((s.fillInbuf b later).clearInbuf.writeByte s.dp b).advance
  /-- A taken loop lands one past a bracket of the text (R162, R163). -/
  | land {i : Instr} {m : Nat} (hi : i = .loopOpen ∨ i = .loopClose) (hm : m < s.text.length) :
      Effect s i (s.setPc (m + 1))
  /-- `J` to a declared label (R240). -/
  | jump {l : LabelOperand} {a : Nat} (ha : s.labels.resolve l.name = some a) :
      Effect s (.jmp l) (s.setPc a)
  /-- `C` to a declared label, with room on the stack (R241). -/
  | call {l : LabelOperand} {a : Nat} {r : ReturnAddress} (ha : s.labels.resolve l.name = some a)
      (hlow : 18 ≤ s.sp) (hhigh : s.sp ≤ s.memSize) :
      Effect s (.call l) (((s.setSp (s.sp - 2)).writeWord (s.sp - 2) r).setPc a)
  /-- `R` with an entry on the stack (R242). -/
  | ret (hsp : s.sp + 2 ≤ s.memSize) :
      Effect s .ret ((s.setSp (s.sp + 2)).setPc (s.readWord s.sp).toNat)
  /-- `;` (R105). -/
  | halt : Effect s .halt s.halt
  /-- A fatal fault (R262). -/
  | raise {i : Instr} {k : FaultCode} (hk : Raises i k) : Effect s i (s.raiseFault k)

variable {s t : State} {i : Instr}

theorem Effect.of_updateCell {f : Byte → Byte} (hi : i ∈ cellWriters) (h : s.updateCell f = .next t) :
    Effect s i t := by
  obtain ⟨hs, rfl⟩ := State.updateCell_next.mp h
  exact .writeCell hi hs

theorem Effect.of_combineCells {f : Byte → Byte → Byte} (hi : i ∈ cellWriters) (hi' : i ∈ twoOperand)
    (h : s.combineCells f = .next t) : Effect s i t := by
  obtain ⟨hs, ⟨hd, rfl⟩ | ⟨-, rfl⟩⟩ := State.combineCells_next.mp h
  · exact .suppress hi' hs hd
  · exact .writeCell hi hs

theorem Effect.of_arithmetic {f : Byte → Byte → Int} (hi : i = .add ∨ i = .mul ∨ i = .sub)
    (h : s.arithmetic f = .next t) : Effect s i t := by
  obtain ⟨hs, ⟨hd, rfl⟩ | ⟨hd, rfl⟩⟩ := State.arithmetic_next.mp h
  · refine .suppress ?_ hs hd
    rcases hi with rfl | rfl | rfl <;> decide
  · exact .arithmetic hi hs hd

theorem Effect.of_execDiv (h : execDiv s = .next t) : Effect s .div t := by
  obtain ⟨hs, ⟨hd, rfl⟩ | ⟨hd, h⟩⟩ := State.withCells_next.mp h
  · exact .suppress (by decide) hs hd
  · split at h <;> cases h
    · exact .divideByZero hs hd
    · exact .divide hs hd

theorem Effect.of_execMod (h : execMod s = .next t) : Effect s .mod t := by
  obtain ⟨hs, ⟨hd, rfl⟩ | ⟨-, h⟩⟩ := State.withCells_next.mp h
  · exact .suppress (by decide) hs hd
  · split at h <;> cases h
    · exact .fallThrough (by simp)
    · exact .writeCell (by decide) hs

theorem Effect.of_execOut (h : execOut s = .next t) : Effect s .out t := by
  obtain ⟨hs, h⟩ := State.withCell_next.mp h
  cases h
  exact .emit hs

theorem Effect.of_execInp (h : execInp s = .next t) : Effect s .inp t := by
  obtain ⟨b, later, hin, h⟩ := State.takeInput_next.mp h
  obtain ⟨hs, rfl⟩ := State.updateCell_next.mp h
  exact .takeInput hin hs

/-- The scan of R161 answers an index into the bytes it scans. -/
theorem scanMatch_lt_length {up down : Byte} {bytes : List Byte} {depth k : Nat}
    (h : scanMatch up down bytes depth = some k) : k < bytes.length := by
  induction bytes generalizing depth k with
  | nil => cases h
  | cons b t ih =>
    unfold scanMatch at h
    simp only at h
    generalize (if b = up then depth + 1 else if b = down then depth - 1 else depth) = d at h
    split at h
    · cases h
      simp
    · obtain ⟨k', hk', rfl⟩ := Option.map_eq_some_iff.mp h
      simpa using ih hk'

/-- A forward match lies in the text. -/
theorem matchForward_lt_length {text : List Byte} {p m : Nat} (h : matchForward text p = some m) :
    m < text.length := by
  obtain ⟨k, hk, rfl⟩ := Option.map_eq_some_iff.mp h
  have := scanMatch_lt_length hk
  rw [List.length_drop] at this
  omega

/-- A backward match lies in the text. -/
theorem matchBackward_lt_length {text : List Byte} {p m : Nat} (h : matchBackward text p = some m) :
    m < text.length := by
  obtain ⟨k, hk, rfl⟩ := Option.map_eq_some_iff.mp h
  have := scanMatch_lt_length hk
  rw [List.length_reverse, List.length_take] at this ⊢
  omega

theorem Effect.of_landPast {matched : Option Nat} (hi : i = .loopOpen ∨ i = .loopClose)
    (hm : ∀ m, matched = some m → m < s.text.length) (h : s.landPast matched = .next t) : Effect s i t := by
  obtain ⟨-, rfl⟩ | ⟨m, hmatch, rfl⟩ := State.landPast_next.mp h
  · exact .raise (by rcases hi with rfl | rfl <;> constructor)
  · exact .land hi (hm m hmatch)

theorem Effect.of_execLoopOpen (h : execLoopOpen s = .next t) : Effect s .loopOpen t := by
  obtain ⟨-, h⟩ := State.withCell_next.mp h
  split at h
  · exact .of_landPast (.inl rfl) (fun _ => matchForward_lt_length) h
  · cases h
    exact .fallThrough (by simp)

theorem Effect.of_execLoopClose (h : execLoopClose s = .next t) : Effect s .loopClose t := by
  obtain ⟨-, h⟩ := State.withCell_next.mp h
  split at h
  · exact .of_landPast (.inr rfl) (fun _ => matchBackward_lt_length) h
  · cases h
    exact .fallThrough (by simp)

theorem Effect.of_execJmp {l : LabelOperand} (h : execJmp l s = .next t) : Effect s (.jmp l) t := by
  obtain ⟨-, rfl⟩ | ⟨a, ha, h⟩ := State.resolve_next.mp h
  · exact .raise (.jmp l)
  · cases h
    exact .jump ha

theorem Effect.of_execCall {l : LabelOperand} (h : execCall l s = .next t) : Effect s (.call l) t := by
  obtain ⟨-, rfl⟩ | ⟨a, ha, h⟩ := State.resolve_next.mp h
  · exact .raise (.callUnresolved l)
  · obtain ⟨-, rfl⟩ | ⟨hlow, hhigh, h⟩ := State.push_next.mp h
    · exact .raise (.callOverflow l)
    · cases h
      exact .call ha hlow hhigh

theorem Effect.of_execRet (h : execRet s = .next t) : Effect s .ret t := by
  obtain ⟨-, rfl⟩ | ⟨hsp, h⟩ := State.pop_next.mp h
  · exact .raise .ret
  · cases h
    exact .ret hsp

/-- Everything an instruction can do when it answers a next state. -/
theorem exec_effect (h : exec i s = .next t) : Effect s i t := by
  cases i with
  | incp => cases h; exact .movePointer (.inl rfl) (Nat.mod_lt _)
  | decp => cases h; exact .movePointer (.inr rfl) (Nat.mod_lt _)
  | inc => exact .of_updateCell (f := (· + 1)) (by decide) h
  | dec => exact .of_updateCell (f := (· + 255)) (by decide) h
  | out => exact .of_execOut h
  | inp => exact .of_execInp h
  | loopOpen => exact .of_execLoopOpen h
  | loopClose => exact .of_execLoopClose h
  | zero => exact .of_updateCell (f := fun _ => 0) (by decide) h
  | and => exact .of_combineCells (by decide) (by decide) h
  | or => exact .of_combineCells (by decide) (by decide) h
  | xor => exact .of_combineCells (by decide) (by decide) h
  | not => exact .of_updateCell (by decide) h
  | shr => exact .of_updateCell (by decide) h
  | shl => exact .of_updateCell (by decide) h
  | add => exact .of_arithmetic (by simp) h
  | mul => exact .of_arithmetic (by simp) h
  | sub => exact .of_arithmetic (by simp) h
  | div => exact .of_execDiv h
  | mod => exact .of_execMod h
  | notb => exact .of_updateCell (by decide) h
  | jmp l => exact .of_execJmp h
  | call l => exact .of_execCall h
  | ret => exact .of_execRet h
  | halt => cases h; exact .halt
  | nop b => cases h; exact .fallThrough (by simp)

/-- An instruction is decoded exactly where the text holds a byte, and that byte is its opcode byte (R82, R101). -/
theorem decode_ahead {rest : List Byte} (h : decode s.ahead = .ok (i, rest)) :
    s.text[s.pc]? = some (opcodeOf i) := by
  cases hb : s.ahead with
  | nil => simp [hb, decode] at h
  | cons b after =>
    have hi : (decodeOp b after).1 = i := by
      rw [hb] at h
      injection h with h
      exact congrArg Prod.fst h
    rw [← hi, Laws.opcodeOf_decodeOp, ← List.head?_drop]
    exact congrArg List.head? hb

/-- The byte at PC is the byte of `.` exactly where OUT is decoded (R80, R82). -/
theorem decode_ahead_out {rest : List Byte} (h : decode s.ahead = .ok (i, rest)) :
    i = .out ↔ s.text[s.pc]? = some 0x2E := by
  constructor
  · rintro rfl
    exact decode_ahead h
  · intro hb
    obtain ⟨after, hafter⟩ := List.head?_eq_some_iff.mp (List.head?_drop.trans hb)
    have hd : decode s.ahead = .ok (.out, after) := congrArg decode hafter
    rw [hd] at h
    cases h
    rfl

/-- Everything a step can do when it answers a next state: halt at the end of the text, or write `IR` and let
the instruction at PC have its effect (R100, R101). -/
theorem step_effect (h : step s = .next t) :
    s.text.length ≤ s.pc ∧ t = s.halt ∨
      ∃ i rest, decode s.ahead = .ok (i, rest) ∧ Config.windowSize ≤ s.memSize ∧
        Effect (s.writeByte Config.irAddr (opcodeOf i)) i t := by
  obtain ⟨-, -, hend | ⟨i, rest, hd, hw, h⟩⟩ := step_next.mp h
  · exact .inl hend
  · exact .inr ⟨i, rest, hd, hw, exec_effect h⟩

/-- A decoded instruction stands below the end of the text. -/
theorem pc_lt_of_decode {rest : List Byte} (h : decode s.ahead = .ok (i, rest)) : s.pc < s.text.length :=
  (List.getElem?_eq_some_iff.mp (decode_ahead h)).1

end Sys2Proof.Machine
end

section
/-! SUPPORT. What each kind of effect leaves unchanged. -/

namespace Sys2Proof.Machine

open Sys2Proof Sys2Proof.Claims

variable {s t : State} {i : Instr}

/-- No instruction changes the configuration, the label table or the level of `rst` (R40, R230). -/
theorem Effect.config_eq (h : Effect s i t) :
    t.text = s.text ∧ t.memSize = s.memSize ∧ t.labelCapacity = s.labelCapacity ∧ t.labels = s.labels ∧
      t.rst = s.rst := by
  cases h <;> exact ⟨rfl, rfl, rfl, rfl, rfl⟩

/-- DP has two writers (R31). -/
theorem Effect.dp_writer (h : Effect s i t) (hne : t.dp ≠ s.dp) : i = .incp ∨ i = .decp := by
  cases h with
  | movePointer hi _ => exact hi
  | _ => exact absurd rfl hne

/-- SP has two writers (R33). -/
theorem Effect.sp_writer (h : Effect s i t) (hne : t.sp ≠ s.sp) : i = .ret ∨ ∃ l, i = .call l := by
  cases h with
  | call => exact .inr ⟨_, rfl⟩
  | ret => exact .inl rfl
  | _ => exact absurd rfl hne

/-- STATE is only ever written to Halted, by `;` and by the instructions that can fault (R34, R263). -/
theorem Effect.runState_writer (h : Effect s i t) (hne : t.runState ≠ s.runState) :
    t.runState = .halted ∧
      (i = .halt ∨ i = .loopOpen ∨ i = .loopClose ∨ i = .ret ∨ ∃ l, i = .jmp l ∨ i = .call l) := by
  cases h with
  | halt => exact ⟨rfl, .inl rfl⟩
  | raise hk => exact ⟨rfl, by cases hk <;> simp⟩
  | _ => exact absurd rfl hne

/-- The list of input bytes has one writer (R55). -/
theorem Effect.input_writer (h : Effect s i t) (hne : t.input ≠ s.input) : i = .inp := by
  cases h with
  | takeInput => rfl
  | _ => exact absurd rfl hne

/-- The output has one writer (R39). -/
theorem Effect.output_writer (h : Effect s i t) (hne : t.output ≠ s.output) : i = .out := by
  cases h with
  | emit => rfl
  | _ => exact absurd rfl hne

/-- `.` appends its cell to the output (R143). -/
theorem Effect.output_out (h : Effect s .out t) : t.output = s.output ++ [s.cell] := by
  cases h with
  | emit => rfl
  | fallThrough hi => simp at hi
  | movePointer hi => simp at hi
  | writeCell hi => exact absurd hi (by decide)
  | suppress hi => exact absurd hi (by decide)
  | arithmetic hi => simp at hi
  | land hi => simp at hi
  | raise hk => cases hk

/-- A byte of the window other than `SR` changes only where the data pointer, or the second cell of `D`, is:
the call stack stays above the window (R28, R33). -/
theorem Effect.readByte_window (h : Effect s i t) {a : Nat} (hw : a < Config.windowSize)
    (hsr : a ≠ Config.srAddr) (hdp : a ≠ s.dp) (hdiv : i = .div → a ≠ s.dp + 1) :
    t.readByte a = s.readByte a := by
  cases h with
  | writeCell => simp [hdp.symm]
  | suppress => simp [hsr.symm]
  | arithmetic => simp [hsr.symm, hdp.symm]
  | divideByZero => simp [hsr.symm]
  | divide => simp [hdp.symm, (hdiv rfl).symm]
  | takeInput => simp [hdp.symm]
  | call _ hlow _ =>
    have hlast : a ≤ 15 := Nat.le_of_lt_succ hw
    have hhi : s.sp - 2 ≠ a := by omega
    have hlo : s.sp - 2 + 1 ≠ a := by omega
    simp [hhi, hlo]
  | _ => rfl

theorem StatusBit.index_lt (k : StatusBit) : k.index < 8 := by cases k <;> decide

theorem StatusBit.index_inj {j k : StatusBit} : j.index = k.index ↔ j = k := by
  cases j <;> cases k <;> decide

/-- `SetBit` gives its bit the value and keeps the other seven (R11). -/
theorem State.statusBit_setBit (j k : StatusBit) (c : Bool) :
    (s.setBit k c).statusBit j = if j = k then c else s.statusBit j := by
  unfold State.statusBit State.sr
  rw [State.readByte_setBit, if_pos rfl, getLsbD_withBit _ _ _ _ j.index_lt]
  simp only [StatusBit.index_inj]

/-- A write elsewhere keeps every status bit. -/
theorem State.statusBit_writeByte_of_ne {a : Nat} (ha : a ≠ Config.srAddr) (v : Byte) (k : StatusBit) :
    (s.writeByte a v).statusBit k = s.statusBit k := by
  unfold State.statusBit State.sr
  rw [State.readByte_writeByte, if_neg ha]

/-- The bit that `SetBit` changes is its own, and takes its value. -/
theorem State.statusBit_of_setBit_ne {j k : StatusBit} {c : Bool}
    (h : (s.setBit k c).statusBit j ≠ s.statusBit j) : j = k ∧ (s.setBit k c).statusBit j = c := by
  rw [State.statusBit_setBit] at h ⊢
  split at h
  · next hjk => exact ⟨hjk, if_pos hjk⟩
  · exact absurd rfl h

theorem WindowSlot.offset_lt (w : WindowSlot) : w.offset < Config.windowSize := by cases w <;> decide

theorem WindowSlot.eq_statusRegister {w : WindowSlot} : w.offset = Config.srAddr → w = .statusRegister := by
  cases w <;> decide

theorem WindowSlot.eq_instructionRegister {w : WindowSlot} :
    w.offset = Config.irAddr → w = .instructionRegister := by
  cases w <;> decide

end Sys2Proof.Machine
end

section
/-! SUPPORT. The label pre-pass: where its addresses lie, and when it rejects a text (R37, R233, R234). -/

namespace Sys2Proof.Machine

open Sys2Proof Sys2Proof.Claims

/-- A declaration adds no entry but its own. -/
theorem LabelTable.mem_declare {lt : LabelTable} {n : List Byte} {a : Nat} {e : List Byte × Nat}
    (h : e ∈ lt.declare n a) : e = (n, a) ∨ e ∈ lt := by
  induction lt with
  | nil => exact .inl (List.mem_singleton.mp h)
  | cons d t ih =>
    obtain ⟨k, b⟩ := d
    unfold LabelTable.declare at h
    split at h
    · next hk =>
      subst hk
      exact (List.mem_cons.mp h).imp_right (List.mem_cons_of_mem _)
    · rcases List.mem_cons.mp h with rfl | h
      · exact .inr List.mem_cons_self
      · exact (ih h).imp_right (List.mem_cons_of_mem _)

/-- A resolved name stands in the table with its address. -/
theorem LabelTable.mem_of_resolve {lt : LabelTable} {n : List Byte} {a : Nat} (h : lt.resolve n = some a) :
    (n, a) ∈ lt := by
  induction lt with
  | nil => cases h
  | cons d t ih =>
    obtain ⟨k, b⟩ := d
    unfold LabelTable.resolve at h
    split at h
    · next hk =>
      cases h
      exact hk ▸ List.mem_cons_self
    · exact List.mem_cons_of_mem _ (ih h)

/-- The lines of a text hold no more bytes than the text (R231). -/
theorem sum_length_splitLines_le (text : List Byte) :
    ((splitLines text).map List.length).sum ≤ text.length := by
  induction text with
  | nil => decide
  | cons b t ih =>
    unfold splitLines
    split
    · simpa using Nat.le_succ_of_le ih
    · split
      · simp
      · next l ls hl =>
        simp only [hl, List.map_cons, List.sum_cons, List.length_cons] at ih ⊢
        omega

/-- The scan of the lines keeps every bound on the addresses that leaves room for the lines to come. -/
theorem scanLines_addresses_le {cap : LabelCapacity} {lines : List (List Byte)} {lt lt' : LabelTable}
    {addr bound : Nat} (hlt : ∀ e ∈ lt, e.2 ≤ bound) (haddr : addr + (lines.map List.length).sum ≤ bound)
    (h : scanLines cap lt addr lines = some lt') : ∀ e ∈ lt', e.2 ≤ bound := by
  induction lines generalizing lt addr with
  | nil =>
    cases h
    exact hlt
  | cons line lines ih =>
    rw [List.map_cons, List.sum_cons] at haddr
    unfold scanLines at h
    split at h
    · exact ih hlt (by omega) h
    · split at h
      · cases h
      · refine ih (fun e he => ?_) (by omega) h
        rcases LabelTable.mem_declare he with rfl | he
        · show addr ≤ bound
          omega
        · exact hlt e he

theorem buildLabels_addresses_le {cap : LabelCapacity} {text : List Byte} {lt : LabelTable}
    (h : buildLabels cap text = some lt) : ∀ e ∈ lt, e.2 ≤ text.length :=
  scanLines_addresses_le (by simp) (by simpa using sum_length_splitLines_le text) h

theorem LabelTable.full_iff {lt : LabelTable} {cap : LabelCapacity} :
    lt.full cap = true ↔ ∃ n : PNat, cap = some n ∧ lt.length = n := by
  cases cap <;> simp [LabelTable.full]

/-- A declaration keeps the names of the table distinct (R37). -/
theorem LabelTable.nodup_declare {lt : LabelTable} (h : (lt.map Prod.fst).Nodup) (n : List Byte) (a : Nat) :
    ((lt.declare n a).map Prod.fst).Nodup := by
  rw [LabelTable.keys_declare]
  split
  · exact h
  · next hn => exact List.concat_eq_append ▸ h.concat hn

/-- A declaration adds its name to the names of the table (R234). -/
theorem LabelTable.toFinset_keys_declare (lt : LabelTable) (n : List Byte) (a : Nat) :
    ((lt.declare n a).map Prod.fst).toFinset = insert n (lt.map Prod.fst).toFinset := by
  rw [LabelTable.keys_declare]
  split
  · next hn => exact (Finset.insert_eq_self.mpr (List.mem_toFinset.mpr hn)).symm
  · rw [List.toFinset_append, Finset.union_comm]
    rfl

/-- A declaration that the capacity check lets through keeps the table within the capacity (R233). -/
theorem LabelTable.length_declare_le {lt : LabelTable} {n : List Byte} {cap : PNat}
    (h : lt.length ≤ cap) (hroom : ¬ (lt.resolve n = none ∧ lt.full (some cap) = true)) (a : Nat) :
    (lt.declare n a).length ≤ cap := by
  rw [← List.length_map (as := lt.declare n a) Prod.fst, LabelTable.keys_declare]
  split
  · simpa using h
  · next hn =>
    have hne : lt.length ≠ cap := fun he =>
      hroom ⟨(lt.resolve_eq_none n).mpr hn, LabelTable.full_iff.mpr ⟨cap, rfl, he⟩⟩
    simp only [List.length_append, List.length_map, List.length_singleton]
    omega

/-- The names a table holds once the lines to come have declared theirs. -/
def namesAfter (lt : LabelTable) (lines : List (List Byte)) : Finset (List Byte) :=
  (lt.map Prod.fst).toFinset ∪ (lines.filterMap declaredName).toFinset

theorem namesAfter_nil {lt : LabelTable} (h : (lt.map Prod.fst).Nodup) :
    (namesAfter lt []).card = lt.length := by
  simp [namesAfter, List.toFinset_card_of_nodup h]

theorem namesAfter_cons_of_none {line : List Byte} (h : declaredName line = none) (lt : LabelTable)
    (lines : List (List Byte)) : namesAfter lt (line :: lines) = namesAfter lt lines := by
  simp [namesAfter, h]

theorem namesAfter_cons_of_some {line n : List Byte} (h : declaredName line = some n) (lt : LabelTable)
    (a : Nat) (lines : List (List Byte)) :
    namesAfter lt (line :: lines) = namesAfter (lt.declare n a) lines := by
  rw [namesAfter, namesAfter, LabelTable.toFinset_keys_declare, List.filterMap_cons_some h,
    List.toFinset_cons, Finset.union_insert, Finset.insert_union]

/-- A full table with a new name still to come ends above its capacity. -/
theorem length_lt_card_namesAfter {lt : LabelTable} (hnd : (lt.map Prod.fst).Nodup) {line n : List Byte}
    (h : declaredName line = some n) (hn : n ∉ lt.map Prod.fst) (lines : List (List Byte)) :
    lt.length < (namesAfter lt (line :: lines)).card := by
  rw [← namesAfter_nil hnd]
  refine Finset.card_lt_card ⟨?_, fun hsub => hn ?_⟩
  · simp [namesAfter]
  · have : n ∈ namesAfter lt [] := hsub (by simp [namesAfter, h])
    simpa [namesAfter] using this

/-- The scan rejects exactly where the names outnumber the capacity in the end (R233). -/
theorem scanLines_eq_none {cap : LabelCapacity} {lines : List (List Byte)} {lt : LabelTable} {addr : Nat}
    (hnd : (lt.map Prod.fst).Nodup) (hcap : ∀ n : PNat, cap = some n → lt.length ≤ n) :
    scanLines cap lt addr lines = none ↔
      ∃ n : PNat, cap = some n ∧ (n : Nat) < (namesAfter lt lines).card := by
  induction lines generalizing lt addr with
  | nil =>
    rw [namesAfter_nil hnd]
    refine iff_of_false nofun fun ⟨n, hn, hlt⟩ => ?_
    exact Nat.not_lt.mpr (hcap n hn) hlt
  | cons line lines ih =>
    unfold scanLines
    split
    · next hdecl => rw [namesAfter_cons_of_none hdecl, ih hnd hcap]
    · next name hdecl =>
      split
      · next hfull =>
        obtain ⟨hnew, hfull⟩ := hfull
        obtain ⟨n, hn, hlen⟩ := LabelTable.full_iff.mp hfull
        have := length_lt_card_namesAfter hnd hdecl ((lt.resolve_eq_none name).mp hnew) lines
        exact iff_of_true rfl ⟨n, hn, hlen ▸ this⟩
      · next hroom =>
        rw [namesAfter_cons_of_some hdecl lt addr,
          ih (LabelTable.nodup_declare hnd name addr) fun n hn => ?_]
        subst hn
        exact LabelTable.length_declare_le (hcap n rfl) hroom addr

/-- The pre-pass rejects a text exactly where it declares more names than the capacity (R233, R234). -/
theorem buildLabels_eq_none {cap : LabelCapacity} {text : List Byte} :
    buildLabels cap text = none ↔ ∃ n : PNat, cap = some n ∧ (n : Nat) < (declaredNames text).length := by
  have hcard : (namesAfter [] (splitLines text)).card = (declaredNames text).length := by
    simp [namesAfter, declaredNames, List.card_toFinset]
  rw [← hcard]
  exact scanLines_eq_none List.nodup_nil (by simp)

end Sys2Proof.Machine
end

section
/-! SUPPORT. The two outcomes of the reset sequence (R290 to R294). -/

namespace Sys2Proof.Machine

open Sys2Proof Sys2Proof.Claims

variable {c : LaunchConfig}

/-- The check of R292 passes exactly where the sizes are legal and the pre-pass builds a table. -/
theorem not_mustReject_iff :
    ¬ MustReject c ↔ c.legal ∧ ∃ labels, buildLabels c.labelCapacity c.text = some labels := by
  rw [← Option.ne_none_iff_exists', ne_eq, buildLabels_eq_none]
  unfold MustReject LaunchConfig.legal
  simp only [Config.windowSize, Config.maxMemSize, Config.maxProgLen, not_or, Nat.not_lt, and_assoc]

theorem boot_of_mustReject (h : MustReject c) : boot c = c.rejected := by
  unfold boot
  split
  · next hlegal =>
    cases hb : buildLabels c.labelCapacity c.text with
    | none => rfl
    | some labels => exact absurd h (not_mustReject_iff.mpr ⟨hlegal, labels, hb⟩)
  · rfl

theorem boot_of_not_mustReject (h : ¬ MustReject c) :
    c.legal ∧ ∃ labels, buildLabels c.labelCapacity c.text = some labels ∧ boot c = c.started labels := by
  obtain ⟨hlegal, labels, hb⟩ := not_mustReject_iff.mp h
  refine ⟨hlegal, labels, hb, ?_⟩
  unfold boot
  rw [if_pos hlegal, hb]

end Sys2Proof.Machine
end

section
/-! SUPPORT. The invariant: each named update of the state keeps it under its own condition. -/

namespace Sys2Proof.Machine

open Sys2Proof Sys2Proof.Claims

variable {s t : State} {i : Instr}

/-- A write below MEM_SIZE. -/
theorem State.Inv.writeByte (h : s.Inv) {a : Nat} (ha : a < s.memSize) (v : Byte) : (s.writeByte a v).Inv :=
  { h with
    mem_wf := State.wf_writeByte h.mem_wf a v
    mem_inside := fun _ hc => (Memory.mem_write hc).elim (fun e => e ▸ ha) (h.mem_inside _) }

/-- A status bit lies in the window, which every memory holds. -/
theorem State.Inv.setBit (h : s.Inv) (k : StatusBit) (c : Bool) : (s.setBit k c).Inv :=
  h.writeByte (Nat.lt_of_lt_of_le (by decide) h.memSize_low) _

/-- A two-byte write below MEM_SIZE. -/
theorem State.Inv.writeWord (h : s.Inv) {a : Nat} (ha : a + 1 < s.memSize) (w : ReturnAddress) :
    (s.writeWord a w).Inv :=
  (h.writeByte (Nat.lt_of_succ_lt ha) _).writeByte ha _

/-- PC moves only while no fault is recorded. -/
theorem State.Inv.setPc (h : s.Inv) (hf : s.fault = .noFault) {n : Nat} (hn : n ≤ 65535) : (s.setPc n).Inv :=
  { h with
    pc_range := hn
    faultPc_eq := by simpa [hf] using h.faultPc_eq }

theorem State.Inv.setDp (h : s.Inv) {n : Nat} (hn : n < s.memSize) : (s.setDp n).Inv :=
  { h with dp_range := hn }

theorem State.Inv.setSp (h : s.Inv) {n : Nat} (hlow : Config.windowSize ≤ n) (hhigh : n ≤ s.memSize)
    (hparity : n % 2 = s.sp % 2) : (s.setSp n).Inv :=
  { h with
    sp_low := hlow
    sp_high := hhigh
    sp_parity := hparity.trans h.sp_parity }

theorem State.Inv.halt (h : s.Inv) : s.halt.Inv :=
  { h with running_clean := nofun }

theorem State.Inv.raiseFault (h : s.Inv) {k : FaultCode} (hk : Raises i k) : (s.raiseFault k).Inv :=
  { h with
    running_clean := nofun
    accepted := by cases hk <;> exact nofun
    faultPc_eq := by cases hk <;> rfl }

theorem State.Inv.emit (h : s.Inv) (b : Byte) : (s.emit b).Inv := { h with }

theorem State.Inv.takeInput (h : s.Inv) (b : Byte) (later : List Byte) :
    (s.fillInbuf b later).clearInbuf.Inv :=
  { h with inbuf_empty := rfl }

/-- A declared label lies in the text or at its end, so PC can hold its address (R37). -/
theorem State.Inv.resolve_le (h : s.Inv) {n : List Byte} {a : Nat} (ha : s.labels.resolve n = some a) :
    a ≤ 65535 :=
  (buildLabels_addresses_le h.labels_built _ (LabelTable.mem_of_resolve ha)).trans h.progLen_high

/-- An instruction that runs below the end of the text, with no fault recorded, keeps the invariant. -/
theorem Effect.inv (he : Effect s i t) (h : s.Inv) (hf : s.fault = .noFault) (hpc : s.pc < s.text.length) :
    t.Inv := by
  have hplen : s.text.length ≤ 65535 := h.progLen_high
  have hnext : s.pc + 1 ≤ 65535 := by omega
  cases he with
  | fallThrough => exact h.setPc hf hnext
  | movePointer _ hn => exact (h.setDp (hn (Nat.zero_lt_of_lt h.dp_range))).setPc hf hnext
  | writeCell => exact (h.writeByte h.dp_range _).setPc hf hnext
  | suppress => exact (h.setBit _ _).setPc hf hnext
  | arithmetic => exact ((h.writeByte h.dp_range _).setBit _ _).setPc hf hnext
  | divideByZero => exact (h.setBit _ _).setPc hf hnext
  | divide _ hd => exact ((h.writeByte h.dp_range _).writeByte hd _).setPc hf hnext
  | emit => exact (h.emit _).setPc hf hnext
  | takeInput => exact ((h.takeInput _ _).writeByte h.dp_range _).setPc hf hnext
  | land _ hm => exact h.setPc hf (by omega)
  | jump ha => exact h.setPc hf (h.resolve_le ha)
  | call ha hlow hhigh =>
    have hroom : 16 ≤ s.sp - 2 := by omega
    have hsp : (s.setSp (s.sp - 2)).Inv := h.setSp hroom (by omega) (by omega)
    have htop : s.sp - 2 + 1 < s.memSize := by omega
    exact (hsp.writeWord htop _).setPc hf (h.resolve_le ha)
  | ret hle =>
    have hsp : (s.setSp (s.sp + 2)).Inv :=
      h.setSp (Nat.le_add_right_of_le h.sp_low) hle (by omega)
    exact hsp.setPc hf (Nat.le_of_lt_succ (s.readWord s.sp).isLt)
  | halt => exact h.halt
  | raise hk => exact h.raiseFault hk

/-- The state of a legal launch has the invariant (R41). -/
theorem LaunchConfig.started_inv {c : LaunchConfig} {labels : LabelTable} (hlegal : c.legal)
    (hb : buildLabels c.labelCapacity c.text = some labels) : (c.started labels).Inv := by
  obtain ⟨hlow, hhigh, hlen⟩ := hlegal
  exact
    { memSize_low := hlow
      memSize_high := hhigh
      progLen_high := hlen
      mem_wf := Memory.wf_nil
      mem_inside := nofun
      pc_range := Nat.zero_le _
      dp_range := Nat.mod_lt _ (Nat.lt_of_lt_of_le (by decide) hlow)
      sp_low := hlow
      sp_high := le_rfl
      sp_parity := rfl
      running_clean := fun _ => rfl
      accepted := nofun
      faultPc_eq := rfl
      labels_built := hb
      inbuf_empty := rfl }

end Sys2Proof.Machine
end

section
/-! The statements about the state (spec/10_state.md). -/

namespace Sys2Proof.Proofs

open Sys2Proof Sys2Proof.Machine Sys2Proof.Claims

/-- Settles O46: every effect of an instruction keeps the invariant, and so do the write of `IR` and the halt at
the end of the text. -/
theorem stepKeepsTheInvariant : Obligations.StepKeepsTheInvariant := by
  intro s t h hstep
  have hrunning : s.runState = .running := (step_next.mp hstep).2.1
  obtain ⟨-, rfl⟩ | ⟨i, rest, hd, hw, he⟩ := step_effect hstep
  · exact h.halt
  · have hir : Config.irAddr < s.memSize := Nat.lt_of_lt_of_le (by decide) hw
    exact he.inv (h.writeByte hir _) (h.running_clean hrunning) (pc_lt_of_decode hd)

/-- Settles O8: the fetch writes `M[7]`, and the effect of the instruction reaches it only through the data
pointer. -/
theorem fetchedByteStaysInIr : Obligations.FetchedByteStaysInIr := by
  intro s t hstep
  obtain ⟨hend, rfl⟩ | ⟨i, rest, hd, -, he⟩ := step_effect hstep
  · exact ⟨fun _ => rfl, fun hlt => absurd hend (Nat.not_le.mpr hlt)⟩
  · refine ⟨fun hend => absurd (pc_lt_of_decode hd) (Nat.not_lt.mpr hend), fun _ h7 hdiv => ?_⟩
    have hkept : t.readByte 7 = (s.writeByte Config.irAddr (opcodeOf i)).readByte 7 := by
      refine he.readByte_window (by decide) (by decide) (Ne.symm h7) ?_
      rintro rfl h
      exact hdiv ⟨(Nat.succ.inj h).symm, decode_ahead hd⟩
    rw [hkept, decode_ahead hd, State.readByte_writeByte, if_pos rfl]

/-- Settles O14: `.` appends its cell, which is the latched opcode byte at `DP = 7`, and no other instruction
writes the output. -/
theorem onlyOutStrobesTheOutput : Obligations.OnlyOutStrobesTheOutput := by
  intro s t hstep
  suffices hout : t.output = s.output ++
      (if s.text[s.pc]? = some 0x2E then [if s.dp = 7 then 0x2E else s.readByte s.dp] else []) by
    have hstrobe := congrArg (List.drop s.output.length) hout
    rw [List.drop_left] at hstrobe
    exact ⟨hstrobe, hout.trans (congrArg _ hstrobe.symm)⟩
  obtain ⟨hend, rfl⟩ | ⟨i, rest, hd, -, he⟩ := step_effect hstep
  · simp [List.getElem?_eq_none hend]
  · split
    · next hb =>
      obtain rfl := (decode_ahead_out hd).mpr hb
      rw [he.output_out]
      simp [State.cell, opcodeOf, eq_comm (a := s.dp)]
    · next hb =>
      rw [List.append_nil]
      by_contra hne
      exact hb ((decode_ahead_out hd).mp (he.output_writer hne))

/-- Settles O32, from the writers of each register. -/
theorem dedicatedRegistersHaveTheirWriters : Obligations.DedicatedRegistersHaveTheirWriters := by
  intro i s t h
  have he := exec_effect h
  exact ⟨he.dp_writer, he.sp_writer, he.runState_writer, he.output_writer, he.input_writer⟩

/-- Settles O33: no effect touches the configuration, nor does the write of `IR` or the halt. -/
theorem stepKeepsTextAndLabels : Obligations.StepKeepsTextAndLabels := by
  intro s t hstep
  obtain ⟨-, rfl⟩ | ⟨i, rest, -, -, he⟩ := step_effect hstep
  · exact ⟨rfl, rfl, rfl, rfl, rfl⟩
  · exact he.config_eq

/-- Settles O34: with the data pointer off `SR`, the three effects that set a bit are its only writers. -/
theorem statusBitsHaveTheirWriters : Obligations.StatusBitsHaveTheirWriters := by
  intro i s t h h6 h5 b hb
  cases exec_effect h with
  | suppress hi _ hd =>
    obtain ⟨hbit, hset⟩ := State.statusBit_of_setBit_ne hb
    exact .inr (.inr ⟨hbit, hi, hd, hset⟩)
  | divideByZero =>
    obtain ⟨hbit, hset⟩ := State.statusBit_of_setBit_ne hb
    exact .inr (.inl ⟨hbit, rfl, hset⟩)
  | arithmetic hi =>
    rw [← State.statusBit_writeByte_of_ne (s := s) h6] at hb
    exact .inl ⟨(State.statusBit_of_setBit_ne hb).1, hi⟩
  | writeCell => exact absurd (State.statusBit_writeByte_of_ne h6 _ b) hb
  | takeInput => exact absurd (State.statusBit_writeByte_of_ne h6 _ b) hb
  | divide =>
    have hnext : s.dp + 1 ≠ Config.srAddr := fun h => h5 (Nat.succ.inj h)
    exact absurd ((State.statusBit_writeByte_of_ne hnext _ b).trans
      (State.statusBit_writeByte_of_ne h6 _ b)) hb
  | call _ hlow _ =>
    have hhi : s.sp - 2 ≠ 6 := by omega
    have hlo : s.sp - 2 + 1 ≠ 6 := by omega
    exact absurd ((State.statusBit_writeByte_of_ne hlo _ b).trans
      (State.statusBit_writeByte_of_ne hhi _ b)) hb
  | _ => exact absurd rfl hb

/-- Settles O35: the plain slots lie in the window, below the data pointer, and are neither `SR` nor `IR`. -/
theorem plainSlotsHaveNoWriter : Obligations.PlainSlotsHaveNoWriter := by
  intro s t hstep hdp w hsr hir
  obtain ⟨-, rfl⟩ | ⟨i, rest, -, -, he⟩ := step_effect hstep
  · rfl
  · have hw : w.offset < s.dp := Nat.lt_of_lt_of_le w.offset_lt hdp
    have hkept := he.readByte_window w.offset_lt (mt WindowSlot.eq_statusRegister hsr) (Nat.ne_of_lt hw)
      fun _ => Nat.ne_of_lt (Nat.lt_succ_of_lt hw)
    rw [State.readByte_writeByte, if_neg (Ne.symm (mt WindowSlot.eq_instructionRegister hir))] at hkept
    exact hkept

/-- Settles O39: the running address of the pre-pass never passes the bytes scanned. -/
theorem labelAddressesStayInTheText : Obligations.LabelAddressesStayInTheText :=
  fun _ _ _ => buildLabels_addresses_le

/-- Settles O41: the reset sequence ends in one of two states, decided by the check of R292. -/
theorem acceptedLaunchStartsAtReset : Obligations.AcceptedLaunchStartsAtReset := by
  refine fun c => ⟨fun h => ?_, fun h => ?_⟩
  · rw [boot_of_mustReject h]
    exact ⟨rfl, rfl, rfl⟩
  · obtain ⟨-, labels, hb, hboot⟩ := boot_of_not_mustReject h
    rw [hboot]
    exact ⟨fun _ => rfl, rfl, rfl, rfl, rfl, rfl, rfl, hb, rfl, rfl, rfl, rfl, rfl⟩

/-- Settles O48: an accepted launch is legal and has its label table. -/
theorem acceptedLaunchHasTheInvariant : Obligations.AcceptedLaunchHasTheInvariant := by
  intro c h
  obtain ⟨hlegal, labels, hb, hboot⟩ := boot_of_not_mustReject h
  rw [hboot]
  exact LaunchConfig.started_inv hlegal hb

/-- Settles O42, by running the reset sequence on the default launch. -/
theorem resetIsTheDefaultLaunch : Obligations.ResetIsTheDefaultLaunch := rfl

/-- Settles O44: out of reset the ports show the fault registers, and the read port follows STATE. -/
theorem hostReadsTheHaltedMachine : Obligations.HostReadsTheHaltedMachine := by
  intro s hrst
  refine ⟨by simp [State.faultCodePort, hrst], fun hpc => ?_, fun hrun => ?_, fun hhalt hfault => ?_⟩
  · simp [State.faultPcPort, hrst, Nat.mod_eq_of_lt (Nat.lt_succ_of_le hpc)]
  · have hport : s.haltedPort = false := by simp [State.haltedPort, hrun]
    exact ⟨hport, fun a => by simp [State.memReadPort, hport]⟩
  · have hport : s.haltedPort = true := by simp [State.haltedPort, hrst, hhalt]
    have hread (a : BitVec 16) :
        s.memReadPort a = some (if a.toNat < s.memSize then s.readByte a.toNat else 0) := by
      simp [State.memReadPort, hport, hfault]
    exact ⟨hport, fun a => ⟨fun hlt => by rw [hread, if_pos hlt],
      fun hge => by rw [hread, if_neg (Nat.not_lt.mpr hge)]⟩⟩

/-- Settles O45: the head of the text from PC on is `Text[PC]`. -/
theorem inReqMarksTheInputStep : Obligations.InReqMarksTheInputStep := by
  intro s
  have hhead : s.ahead.head? = s.text[s.pc]? := List.head?_drop
  simp [State.inReq, hhead, opcodeOf, and_assoc]

/-- Settles O47: `State.reset` is the state of a legal launch with an empty label table. -/
theorem resetHasTheInvariant : Obligations.ResetHasTheInvariant :=
  LaunchConfig.started_inv (c := ⟨65536, [], none, []⟩) (by decide) rfl

end Sys2Proof.Proofs
end

section
/-! SUPPORT. The shared operations answer a next state: under the range conditions of the invariant the only stop
left to an instruction is the wait of `,` (R66, R142). -/

namespace Sys2Proof.Machine

open Sys2Proof Sys2Proof.Claims

variable {s : State} {i : Instr}

theorem ite_completes {c : Prop} [Decidable c] {r r' : Result} (h : ∃ t, r = .next t)
    (h' : ∃ t, r' = .next t) : ∃ t, (if c then r else r') = .next t := by
  split
  · exact h
  · exact h'

theorem State.withCell_completes {k : Byte → Result} (hs : s.cellInRange)
    (hk : ∃ t, k s.cell = .next t) : ∃ t, s.withCell k = .next t :=
  hk.imp fun _ h => State.withCell_next.mpr ⟨hs, h⟩

theorem State.updateCell_completes (hs : s.cellInRange) (f : Byte → Byte) :
    ∃ t, s.updateCell f = .next t :=
  ⟨_, State.updateCell_next.mpr ⟨hs, rfl⟩⟩

/-- At the top of memory the instruction is suppressed (R182); below it, both cells are there. -/
theorem State.withCells_completes {k : Byte → Byte → Result} (hs : s.cellInRange)
    (hk : ∃ t, k s.cell s.nextCell = .next t) : ∃ t, s.withCells k = .next t := by
  rcases Nat.eq_or_lt_of_le (Nat.succ_le_of_lt hs.2) with htop | hbelow
  · exact ⟨_, State.withCells_next.mpr ⟨hs, .inl ⟨htop, rfl⟩⟩⟩
  · exact hk.imp fun _ h => State.withCells_next.mpr ⟨hs, .inr ⟨hbelow, h⟩⟩

theorem State.combineCells_completes (hs : s.cellInRange) (f : Byte → Byte → Byte) :
    ∃ t, s.combineCells f = .next t :=
  State.withCells_completes hs ⟨_, rfl⟩

theorem State.arithmetic_completes (hs : s.cellInRange) (f : Byte → Byte → Int) :
    ∃ t, s.arithmetic f = .next t :=
  State.withCells_completes hs ⟨_, rfl⟩

theorem State.takeInput_completes {k : Byte → State → Result} (hin : s.input ≠ [])
    (hk : ∀ b later, ∃ t, k b (s.fillInbuf b later).clearInbuf = .next t) :
    ∃ t, s.takeInput k = .next t := by
  obtain ⟨b, later, hin⟩ := List.exists_cons_of_ne_nil hin
  exact (hk b later).imp fun _ h => State.takeInput_next.mpr ⟨b, later, hin, h⟩

/-- A missing match is the fatal BRACKET_UNMATCHED, which is a next state too (R262). -/
theorem State.landPast_completes (matched : Option Nat) : ∃ t, s.landPast matched = .next t := by
  cases matched with
  | none => exact ⟨_, rfl⟩
  | some m => exact ⟨_, rfl⟩

theorem State.resolve_completes {name : List Byte} {k : Nat → Result} (hk : ∀ a, ∃ t, k a = .next t) :
    ∃ t, s.resolve name k = .next t := by
  cases h : s.labels.resolve name with
  | none => exact ⟨_, State.resolve_next.mpr (.inl ⟨h, rfl⟩)⟩
  | some a => exact (hk a).imp fun _ ha => State.resolve_next.mpr (.inr ⟨a, h, ha⟩)

/-- A full stack is the fatal STACK_OVERFLOW; otherwise the entry lies below SP, inside the memory (R236). -/
theorem State.push_completes {a : ReturnAddress} {k : State → Result} (hsp : s.sp ≤ s.memSize)
    (hk : ∀ s', ∃ t, k s' = .next t) : ∃ t, s.push a k = .next t := by
  rcases Nat.lt_or_ge s.sp 18 with hfull | hroom
  · exact ⟨_, State.push_next.mpr (.inl ⟨hfull, rfl⟩)⟩
  · exact (hk _).imp fun _ h => State.push_next.mpr (.inr ⟨hroom, hsp, h⟩)

theorem State.pop_completes {k : ReturnAddress → State → Result} (hk : ∀ a s', ∃ t, k a s' = .next t) :
    ∃ t, s.pop k = .next t := by
  rcases Nat.lt_or_ge s.memSize (s.sp + 2) with hempty | hentry
  · exact ⟨_, State.pop_next.mpr (.inl ⟨hempty, rfl⟩)⟩
  · exact (hk _ _).imp fun _ h => State.pop_next.mpr (.inr ⟨hentry, h⟩)

theorem execOut_completes (hs : s.cellInRange) : ∃ t, execOut s = .next t :=
  State.withCell_completes hs ⟨_, rfl⟩

theorem execInp_completes (hs : s.cellInRange) (hin : s.input ≠ []) : ∃ t, execInp s = .next t :=
  State.takeInput_completes hin fun b later =>
    State.updateCell_completes (s := (s.fillInbuf b later).clearInbuf) hs fun _ => b

theorem execDiv_completes (hs : s.cellInRange) : ∃ t, execDiv s = .next t :=
  State.withCells_completes hs (ite_completes ⟨_, rfl⟩ ⟨_, rfl⟩)

theorem execMod_completes (hs : s.cellInRange) : ∃ t, execMod s = .next t :=
  State.withCells_completes hs (ite_completes ⟨_, rfl⟩ ⟨_, rfl⟩)

theorem execLoopOpen_completes (hs : s.cellInRange) : ∃ t, execLoopOpen s = .next t :=
  State.withCell_completes hs (ite_completes (State.landPast_completes _) ⟨_, rfl⟩)

theorem execLoopClose_completes (hs : s.cellInRange) : ∃ t, execLoopClose s = .next t :=
  State.withCell_completes hs (ite_completes (State.landPast_completes _) ⟨_, rfl⟩)

/-- With DP and SP in their ranges, every instruction but a `,` without a byte answers a next state: no access is
out of range (R66) and none is refused. -/
theorem exec_completes (hs : s.cellInRange) (hsp : s.sp ≤ s.memSize) (hin : i = .inp → s.input ≠ []) :
    ∃ t, exec i s = .next t := by
  cases i with
  | incp => exact ⟨_, rfl⟩
  | decp => exact ⟨_, rfl⟩
  | inc => exact State.updateCell_completes hs (· + 1)
  | dec => exact State.updateCell_completes hs (· + 255)
  | out => exact execOut_completes hs
  | inp => exact execInp_completes hs (hin rfl)
  | loopOpen => exact execLoopOpen_completes hs
  | loopClose => exact execLoopClose_completes hs
  | zero => exact State.updateCell_completes hs fun _ => 0
  | and => exact State.combineCells_completes hs _
  | or => exact State.combineCells_completes hs _
  | xor => exact State.combineCells_completes hs _
  | not => exact State.updateCell_completes hs _
  | shr => exact State.updateCell_completes hs _
  | shl => exact State.updateCell_completes hs _
  | add => exact State.arithmetic_completes hs _
  | mul => exact State.arithmetic_completes hs _
  | sub => exact State.arithmetic_completes hs _
  | div => exact execDiv_completes hs
  | mod => exact execMod_completes hs
  | notb => exact State.updateCell_completes hs _
  | jmp l => exact State.resolve_completes fun _ => ⟨_, rfl⟩
  | call l => exact State.resolve_completes fun _ => State.push_completes hsp fun _ => ⟨_, rfl⟩
  | ret => exact State.pop_completes fun _ _ => ⟨_, rfl⟩
  | halt => exact ⟨_, rfl⟩
  | nop b => exact ⟨_, rfl⟩

/-- A `,` to which the host presents no byte waits (R142, R145). -/
theorem exec_inp_waits (hin : s.input = []) : exec .inp s = .fault .awaitingInput := by
  simp [exec, execInp, State.takeInput, hin]

end Sys2Proof.Machine
end

section
/-! SUPPORT. The step, case by case: what stops it before the fetch, and which instruction it runs (R100 to R103). -/

namespace Sys2Proof.Machine

open Sys2Proof Sys2Proof.Claims

variable {s : State} {i j : Instr} {rest : List Byte}

theorem step_of_rst (hrst : s.rst = true) : step s = .fault .inReset := by
  simp [step, State.cycle, hrst]

theorem step_of_halted (hrst : s.rst = false) (hhalt : s.runState = .halted) : step s = .fault .halted := by
  simp [step, State.cycle, hrst, hhalt]

/-- Within the text the step is the instruction at PC, run after the write of `IR` (R101). -/
theorem step_of_decode (hrst : s.rst = false) (hrun : s.runState = .running)
    (hw : Config.windowSize ≤ s.memSize) (hd : decode s.ahead = .ok (i, rest)) :
    step s = exec i (s.writeByte Config.irAddr (opcodeOf i)) := by
  simp only [step, State.cycle, hrst, hrun, hd]
  exact if_pos hw

/-- The byte at PC tells whether an instruction of one fixed byte is decoded there (R80, R82). -/
theorem decode_ahead_iff {b : Byte} (hj : Encodes b j) (hd : decode s.ahead = .ok (i, rest)) :
    i = j ↔ s.text[s.pc]? = some b := by
  constructor
  · rintro rfl
    have hop : opcodeOf i = b := by
      have hi : (decodeOp b []).1 = i := congrArg Prod.fst (Except.ok.inj (hj []))
      rw [← hi, Laws.opcodeOf_decodeOp]
    rw [decode_ahead hd, hop]
  · intro hb
    obtain ⟨after, hafter⟩ := List.head?_eq_some_iff.mp (List.head?_drop.trans hb)
    have hahead : decode s.ahead = .ok (j, after) := (congrArg decode hafter).trans (hj after)
    rw [hahead] at hd
    cases hd
    rfl

/-- `in_req` is asserted in a running machine exactly where `,` is decoded (R55). -/
theorem inReq_iff_of_decode (hrst : s.rst = false) (hrun : s.runState = .running)
    (hd : decode s.ahead = .ok (i, rest)) : s.inReq = true ↔ i = .inp := by
  have hinp : Encodes 0x2C .inp := fun _ => rfl
  rw [Proofs.inReqMarksTheInputStep s, decode_ahead_iff hinp hd, and_iff_right hrst, and_iff_right hrun]

/-- `in_req` is not asserted at the end of the text, where no `,` is under way (R55, R100). -/
theorem inReq_false_of_end (hend : s.text.length ≤ s.pc) : ¬ s.inReq = true := by
  rw [Proofs.inReqMarksTheInputStep s, List.getElem?_eq_none hend]
  simp

/-- A running machine with the invariant waits for input where `,` finds no byte, and answers a next state
everywhere else. -/
theorem State.Inv.step_running (h : s.Inv) (hrst : s.rst = false) (hrun : s.runState = .running) :
    (¬ (s.inReq = true ∧ s.input = []) ∧ ∃ t, step s = .next t) ∨
      (s.inReq = true ∧ s.input = [] ∧ step s = .fault .awaitingInput) := by
  cases hd : decode s.ahead with
  | error e =>
    have hend : s.text.length ≤ s.pc := State.ahead_eq_nil.mp (decode_error.mp hd)
    exact .inl ⟨fun hwait => inReq_false_of_end hend hwait.1,
      _, step_next.mpr ⟨hrst, hrun, .inl ⟨hend, rfl⟩⟩⟩
  | ok p =>
    obtain ⟨i, rest⟩ := p
    rw [step_of_decode hrst hrun h.memSize_low hd, inReq_iff_of_decode hrst hrun hd]
    by_cases hwait : i = .inp ∧ s.input = []
    · obtain ⟨rfl, hin⟩ := hwait
      exact .inr ⟨rfl, hin, exec_inp_waits hin⟩
    · exact .inl ⟨hwait, exec_completes ⟨h.memSize_low, h.dp_range⟩ h.sp_high
        fun hi hin => hwait ⟨hi, hin⟩⟩

end Sys2Proof.Machine
end

section
/-! The statement about the memory's bounds (spec/20_memory.md). -/

namespace Sys2Proof.Proofs

open Sys2Proof Sys2Proof.Machine

/-- Settles O49: by `rst` and STATE; in a running machine, by the instruction at PC. -/
theorem invariantStatesStepOrStop : Obligations.InvariantStatesStepOrStop := by
  intro s h
  cases hrst : s.rst with
  | true => exact .inr (.inr (.inr ⟨rfl, step_of_rst hrst⟩))
  | false =>
    cases hrun : s.runState with
    | halted => exact .inr (.inr (.inl ⟨rfl, rfl, step_of_halted hrst hrun⟩))
    | running =>
      obtain ⟨hready, hnext⟩ | ⟨hreq, hin, hstep⟩ := h.step_running hrst hrun
      · exact .inl ⟨rfl, rfl, hready, hnext⟩
      · exact .inr (.inl ⟨rfl, rfl, hreq, hin, hstep⟩)

end Sys2Proof.Proofs
end

section
/-! SUPPORT. The encoding: decoding to an instruction and a rest is the same as the text being the encoding
followed by that rest (R82 to R84). -/

namespace Sys2Proof

open Sys2Proof.Claims

/-- The longest run of elements with a property is the one split whose tail does not go on with it. -/
theorem takeWhile_dropWhile_iff {α : Type} {p : α → Bool} {l xs ys : List α} :
    l.takeWhile p = xs ∧ l.dropWhile p = ys ↔
      xs ++ ys = l ∧ (∀ b ∈ xs, p b = true) ∧ ∀ b, ys.head? = some b → p b = false := by
  constructor
  · rintro ⟨rfl, rfl⟩
    refine ⟨List.takeWhile_append_dropWhile, fun b hb => List.mem_takeWhile_imp hb, fun b hb => ?_⟩
    simpa [hb] using List.head?_dropWhile_not p l
  · rintro ⟨rfl, hxs, hys⟩
    rw [List.takeWhile_append_of_pos hxs, List.dropWhile_append_of_pos hxs]
    cases ys with
    | nil => simp
    | cons b t => simp [hys b rfl]

/-- One `*` is stripped exactly where one stands (R83). -/
theorem stripSigil_iff {bytes after : List Byte} {sigil : Bool} :
    stripSigil bytes = (sigil, after) ↔
      (if sigil then [Config.star] else []) ++ after = bytes ∧
        (sigil = false → after.head? ≠ some Config.star) := by
  constructor
  · intro h
    cases bytes with
    | nil => cases h; simp
    | cons b t =>
      by_cases hb : b = Config.star
      · cases (if_pos hb).symm.trans h
        simp [hb]
      · cases (if_neg hb).symm.trans h
        simpa using hb
  · rintro ⟨rfl, h⟩
    cases sigil with
    | true => rfl
    | false =>
      cases after with
      | nil => rfl
      | cons b t => exact if_neg fun hb => h rfl (congrArg some hb)

/-- The operand `l`, with `rest` behind it in the text, has the parts the scan of R83 finds: each run as long as
can be, and the sigil taken where one stands. -/
structure LabelOperand.ScannedBefore (l : LabelOperand) (rest : List Byte) : Prop where
  gap_blank : ∀ b ∈ l.gap, isBlank b = true
  gap_longest : ∀ b, ((if l.sigil then [Config.star] else []) ++ (l.name ++ rest)).head? = some b →
    isBlank b = false
  sigil_taken : l.sigil = false → (l.name ++ rest).head? ≠ some Config.star
  name_not_ws : ∀ b ∈ l.name, isWs b = false
  name_longest : ∀ b, rest.head? = some b → isWs b = true

/-- `ParseLabelOperand` finds the one split of the bytes that R83 describes. -/
theorem parseLabelOperand_iff_scanned {bytes rest : List Byte} {l : LabelOperand} :
    parseLabelOperand bytes = (l, rest) ↔ operandBytes l ++ rest = bytes ∧ l.ScannedBefore rest := by
  obtain ⟨gap, sigil, name⟩ := l
  constructor
  · intro h
    rcases hs : stripSigil (bytes.dropWhile isBlank) with ⟨sg, after⟩
    simp only [parseLabelOperand, hs, Prod.mk.injEq, LabelOperand.mk.injEq] at h
    obtain ⟨⟨hgap, rfl, hname⟩, hrest⟩ := h
    obtain ⟨hdrop, hsigil⟩ := stripSigil_iff.mp hs
    obtain ⟨hbytes, hblank, hgapEnd⟩ := takeWhile_dropWhile_iff.mp ⟨hgap, hdrop.symm⟩
    obtain ⟨rfl, hws, hnameEnd⟩ := takeWhile_dropWhile_iff.mp ⟨hname, hrest⟩
    exact ⟨by simpa [operandBytes] using hbytes, hblank, hgapEnd, hsigil, by simpa using hws,
      by simpa using hnameEnd⟩
  · rintro ⟨rfl, hblank, hgapEnd, hsigil, hws, hnameEnd⟩
    obtain ⟨hgap, hdrop⟩ := takeWhile_dropWhile_iff.mpr ⟨rfl, hblank, hgapEnd⟩
    obtain ⟨hname, hrest⟩ := (takeWhile_dropWhile_iff (p := (!isWs ·))).mpr
      ⟨rfl, by simpa using hws, by simpa using hnameEnd⟩
    have hs := stripSigil_iff.mpr ⟨rfl, hsigil⟩
    simp only [operandBytes, parseLabelOperand, List.append_assoc, hgap, hdrop, hs, hname, hrest]

/-- Spaces and tabs are whitespace, so a byte of a name is no blank (R13, R83). -/
theorem isBlank_eq_false_of_not_ws {b : Byte} (h : isWs b = false) : isBlank b = false := by
  simp only [isWs, isBlank, List.contains_eq_mem, List.mem_cons] at h ⊢
  simp_all

theorem delimited_iff {l : LabelOperand} {rest : List Byte} :
    Delimited l rest ↔ ∀ b, rest.head? = some b →
      isWs b = true ∧ (l.name = [] → l.sigil = false → isBlank b = false) := by
  cases rest <;> simp [Delimited]

theorem LabelOperand.wellFormed_iff {l : LabelOperand} :
    l.wellFormed = true ↔ (∀ b ∈ l.gap, isBlank b = true) ∧ (∀ b ∈ l.name, isWs b = false) ∧
      (l.sigil = false → l.name.head? ≠ some Config.star) := by
  cases hs : l.sigil <;> simp [LabelOperand.wellFormed, LabelOperand.gapOk, LabelOperand.nameOk,
    LabelOperand.sigilOk, hs, and_assoc]

/-- The text around a well-formed operand settles the scan: a name ends both the gap and the sigil's place, and
where the name is empty the byte that ends the operand does. -/
theorem LabelOperand.scannedBefore_iff {l : LabelOperand} {rest : List Byte} :
    l.ScannedBefore rest ↔ l.wellFormed = true ∧ Delimited l rest := by
  rw [LabelOperand.wellFormed_iff, delimited_iff]
  obtain ⟨gap, sigil, name⟩ := l
  constructor
  · rintro ⟨hblank, hgapEnd, hsigil, hws, hnameEnd⟩
    refine ⟨⟨hblank, hws, fun hs hstar => hsigil hs ?_⟩, fun b hb => ⟨hnameEnd b hb, ?_⟩⟩
    · simp [List.head?_append, hstar]
    · rintro rfl rfl
      exact hgapEnd b hb
  · rintro ⟨⟨hblank, hws, hsigil⟩, hend⟩
    refine ⟨hblank, fun b hb => ?_, fun hs => ?_, hws, fun b hb => (hend b hb).1⟩
    · cases sigil with
      | true => cases hb; rfl
      | false =>
        cases name with
        | nil => exact (hend b hb).2 rfl rfl
        | cons => cases hb; exact isBlank_eq_false_of_not_ws (hws b List.mem_cons_self)
    · cases name with
      | nil => exact fun hstar => absurd (hend _ hstar).1 (by decide)
      | cons c t => exact hsigil hs

/-- `ParseLabelOperand` answers the operands of R83 with the bytes that end them, and only those. -/
theorem parseLabelOperand_iff {bytes rest : List Byte} {l : LabelOperand} :
    parseLabelOperand bytes = (l, rest) ↔
      operandBytes l ++ rest = bytes ∧ l.wellFormed = true ∧ Delimited l rest := by
  rw [parseLabelOperand_iff_scanned, LabelOperand.scannedBefore_iff]

/-- The rows of format B: one byte, no operand, nothing that could follow belongs to the instruction (R81). -/
theorem formatB_row (rest : List Byte) : ∀ row ∈ formatB,
    encode row.2 = [row.1] ∧ row.2.wellFormed = true ∧ Separated row.2 rest := by
  simp [formatB, encode, opcodeOf, Instr.wellFormed, Separated]

theorem mem_formatB_of_lookup {op : Byte} {i : Instr} (h : formatB.lookup op = some i) : (op, i) ∈ formatB := by
  obtain ⟨before, later, heq, -⟩ := List.lookup_eq_some_iff.mp h
  simp [heq]

theorem decode_jmp {bytes rest : List Byte} {l : LabelOperand} (h : parseLabelOperand bytes = (l, rest)) :
    decode (jmpByte :: bytes) = .ok (.jmp l, rest) :=
  congrArg (fun p : LabelOperand × List Byte => Except.ok (Instr.jmp p.1, p.2)) h

theorem decode_call {bytes rest : List Byte} {l : LabelOperand} (h : parseLabelOperand bytes = (l, rest)) :
    decode (callByte :: bytes) = .ok (.call l, rest) :=
  congrArg (fun p : LabelOperand × List Byte => Except.ok (Instr.call p.1, p.2)) h

theorem not_listed_iff {op : Byte} :
    op ∉ listedBytes ↔ formatB.lookup op = none ∧ op ≠ jmpByte ∧ op ≠ callByte := by
  rw [List.lookup_eq_none_iff]
  simp only [listedBytes, List.mem_append, List.mem_map, List.mem_cons, List.not_mem_nil, or_false, not_or,
    not_exists, not_and, bne_iff_ne, ne_eq, eq_comm (a := op)]

theorem Instr.wellFormed_nop {b : Byte} : (Instr.nop b).wellFormed = true ↔ b ∉ listedBytes := by
  simp [Instr.wellFormed]

/-- A byte that the table does not list selects NOP and takes no byte after it (R82). -/
theorem decodeOp_unlisted {op : Byte} (h : op ∉ listedBytes) (rest : List Byte) :
    decodeOp op rest = (.nop op, rest) := by
  obtain ⟨hB, hJ, hC⟩ := not_listed_iff.mp h
  simp [decodeOp, hB, hJ, hC]

theorem unlisted_encodes_nop {b : Byte} (h : b ∉ listedBytes) : Encodes b (.nop b) :=
  fun rest => congrArg Except.ok (decodeOp_unlisted h rest)

/-- What an opcode byte can select: a row of format B, `J`, `C`, or NOP (R82). -/
theorem decodeOp_cases (op : Byte) (rest : List Byte) :
    (∃ i, (op, i) ∈ formatB ∧ decodeOp op rest = (i, rest)) ∨ op = jmpByte ∨ op = callByte ∨
      op ∉ listedBytes := by
  cases h : formatB.lookup op with
  | some i => exact .inl ⟨i, mem_formatB_of_lookup h, by simp [decodeOp, h]⟩
  | none =>
    rw [not_listed_iff]
    tauto

/-- The bytes an opcode byte takes with it are those of the operand it selects: nothing of the text is dropped
(R84). -/
theorem encode_of_decodeOp {op : Byte} {i : Instr} {bytes rest : List Byte} (h : decodeOp op bytes = (i, rest)) :
    encode i ++ rest = op :: bytes ∧ i.wellFormed = true ∧ Separated i rest := by
  obtain ⟨j, hmem, hj⟩ | rfl | rfl | hop := decodeOp_cases op bytes
  · cases hj.symm.trans h
    obtain ⟨henc, hwf, hsep⟩ := formatB_row bytes _ hmem
    exact ⟨congrArg (· ++ bytes) henc, hwf, hsep⟩
  · cases h
    obtain ⟨hbytes, hwf, hdel⟩ := parseLabelOperand_iff.mp (rfl : parseLabelOperand bytes = _)
    exact ⟨congrArg (jmpByte :: ·) hbytes, hwf, hdel⟩
  · cases h
    obtain ⟨hbytes, hwf, hdel⟩ := parseLabelOperand_iff.mp (rfl : parseLabelOperand bytes = _)
    exact ⟨congrArg (callByte :: ·) hbytes, hwf, hdel⟩
  · cases (decodeOp_unlisted hop bytes).symm.trans h
    exact ⟨rfl, Instr.wellFormed_nop.mpr hop, trivial⟩

/-- The operand is scanned back as it was written, and a byte that encodes a no-op selects no row of the table
(R82, R83). -/
theorem decode_encode {i : Instr} {rest : List Byte} (hwf : i.wellFormed = true) (hsep : Separated i rest) :
    decode (encode i ++ rest) = .ok (i, rest) := by
  cases i with
  | jmp l => exact decode_jmp (parseLabelOperand_iff.mpr ⟨rfl, hwf, hsep⟩)
  | call l => exact decode_call (parseLabelOperand_iff.mpr ⟨rfl, hwf, hsep⟩)
  | nop b => exact unlisted_encodes_nop (Instr.wellFormed_nop.mp hwf) rest
  | _ => rfl

/-- Decoding and encoding are inverse to each other: the decoder answers exactly the well-formed instruction and
the rest that together are the text (R82 to R84). -/
theorem decode_iff {bytes rest : List Byte} {i : Instr} :
    decode bytes = .ok (i, rest) ↔ encode i ++ rest = bytes ∧ i.wellFormed = true ∧ Separated i rest := by
  constructor
  · intro h
    cases bytes with
    | nil => cases h
    | cons op t => exact encode_of_decodeOp (Except.ok.inj h)
  · rintro ⟨rfl, hwf, hsep⟩
    exact decode_encode hwf hsep

/-- A format-B byte is its whole instruction, whatever follows (R80, R81). -/
theorem formatB_encodes : ∀ row ∈ formatB, Encodes row.1 row.2 := by
  intro row hrow rest
  obtain ⟨henc, hwf, hsep⟩ := formatB_row rest row hrow
  exact decode_iff.mpr ⟨congrArg (· ++ rest) henc, hwf, hsep⟩

/-- The statements list the bytes of R80 in its order, the model those of format B first. -/
theorem tableBytes_perm : tableBytes.Perm listedBytes := by decide

end Sys2Proof
end

section
/-! The statements about the encoding (spec/30_encoding.md). -/

namespace Sys2Proof.Proofs

open Sys2Proof Sys2Proof.Machine Sys2Proof.Claims

/-- Settles O1: by the kind of instruction; for `J` and `C` by the scan of R83 on a well-formed operand. -/
theorem decodeGivesBackEncoded : Obligations.DecodeGivesBackEncoded :=
  fun _ hwf _ hsep => decode_encode hwf hsep

/-- Settles O2: every decoding is that of an encoding and its rest. -/
theorem encodeGivesBackDecoded : Obligations.EncodeGivesBackDecoded := by
  intro bytes i rest h
  obtain ⟨rfl, hwf, hsep⟩ := decode_iff.mp h
  exact ⟨rfl, hwf, hsep, List.length_append.symm⟩

/-- Settles O4: the parts of the scan of R83, read byte by byte. -/
theorem labelOperandIsParsed : Obligations.LabelOperandIsParsed := by
  intro bytes
  rcases h : parseLabelOperand bytes with ⟨l, rest⟩
  obtain ⟨hbytes, hblank, hgapEnd, hsigil, hws, hnameEnd⟩ := parseLabelOperand_iff_scanned.mp h
  refine ⟨l, rest, decode_jmp h, decode_call h, hbytes.symm, ?_, ?_, hsigil, ?_, ?_⟩
  · simpa [isBlank] using hblank
  · intro b t hb
    have := hgapEnd b (by rw [← List.append_assoc, hb]; rfl)
    simpa [isBlank] using this
  · simpa [isWs] using hws
  · cases rest with
    | nil => exact .inl rfl
    | cons b t => exact .inr ⟨b, t, rfl, by simpa [isWs] using hnameEnd b rfl⟩

/-- Settles O3: the rows of format B, the two of format L, and the bytes the table does not list. -/
theorem everyByteSelectsItsRow : Obligations.EveryByteSelectsItsRow :=
  ⟨formatB_encodes, fun _ => ⟨_, _, rfl⟩, fun _ => ⟨_, _, rfl⟩,
    fun _ hb => unlisted_encodes_nop (mt tableBytes_perm.mem_iff.mpr hb)⟩

/-- Settles O5, by running the decoder on each word. -/
theorem writtenWordsDecode : Obligations.WrittenWordsDecode := ⟨rfl, rfl, rfl, rfl, rfl, rfl⟩

end Sys2Proof.Proofs
end

section
/-! SUPPORT. The fetch: which byte the instruction at PC finds in `IR`, and in its cell where the data pointer stands
on `IR` (R101). -/

namespace Sys2Proof.Machine

open Sys2Proof Sys2Proof.Claims

variable {s : State} {i : Instr} {b : Byte}

/-- A byte that is a whole instruction is decoded wherever PC stands on it (R80, R82). -/
theorem decode_ahead_of_encodes (hi : Encodes b i) (hb : s.text[s.pc]? = some b) :
    ∃ rest, decode s.ahead = .ok (i, rest) := by
  obtain ⟨rest, hahead⟩ := List.head?_eq_some_iff.mp (List.head?_drop.trans hb)
  exact ⟨rest, (congrArg decode hahead).trans (hi rest)⟩

/-- The step at a byte that is a whole instruction: the byte goes to `IR`, and the instruction runs (R101). -/
theorem step_of_encodes (hs : Ready s) (hi : Encodes b i) (hb : s.text[s.pc]? = some b) :
    step s = exec i (s.writeByte Config.irAddr b) := by
  obtain ⟨hrst, hrun, hw⟩ := hs
  obtain ⟨rest, hd⟩ := decode_ahead_of_encodes hi hb
  have hop : opcodeOf i = b := Option.some.inj ((decode_ahead hd).symm.trans hb)
  rw [step_of_decode hrst hrun hw hd, hop]

/-- With the data pointer on `IR` the cell exists, and it is the byte just fetched. -/
theorem State.latched_cell (hs : Ready s) (hdp : s.dp = Config.irAddr) (b : Byte) :
    (s.writeByte Config.irAddr b).cellInRange ∧ (s.writeByte Config.irAddr b).cell = b := by
  obtain ⟨-, -, hw⟩ := hs
  have hdp_lt : s.dp < s.memSize := hdp ▸ Nat.lt_of_lt_of_le (by decide) hw
  exact ⟨⟨hw, hdp_lt⟩, by simp [State.cell, hdp]⟩

/-- An instruction that replaces its cell, run with the data pointer on `IR`, replaces the byte just fetched. -/
theorem State.updateCell_latched (hs : Ready s) (hdp : s.dp = Config.irAddr) (b : Byte) (f : Byte → Byte) :
    ∃ t, (s.writeByte Config.irAddr b).updateCell f = .next t ∧ t.readByte Config.irAddr = f b := by
  obtain ⟨hrange, hcell⟩ := State.latched_cell hs hdp b
  exact ⟨_, State.updateCell_next.mpr ⟨hrange, rfl⟩, by simp [hdp, hcell]⟩

/-- `.` with the data pointer on `IR` emits the byte just fetched. -/
theorem execOut_latched (hs : Ready s) (hdp : s.dp = Config.irAddr) (b : Byte) :
    ∃ t, execOut (s.writeByte Config.irAddr b) = .next t ∧ t.output = s.output ++ [b] := by
  obtain ⟨hrange, hcell⟩ := State.latched_cell hs hdp b
  exact ⟨_, State.withCell_next.mpr ⟨hrange, rfl⟩, by simp [hcell]⟩

end Sys2Proof.Machine
end

section
/-! The statements about the dispatch (spec/40_dispatch.md). -/

namespace Sys2Proof.Proofs

open Sys2Proof Sys2Proof.Machine Sys2Proof.Claims

/-- Settles O6: the state the instruction runs on is that after the write of `IR`. -/
theorem stepRunsDecodedInstruction : Obligations.StepRunsDecodedInstruction := by
  rintro s i rest ⟨hrst, hrun, hw⟩ hd
  obtain ⟨-, hwf, -⟩ := decode_iff.mp hd
  have hir : (s.writeByte Config.irAddr (opcodeOf i)).readByte 7 = opcodeOf i := by simp
  refine ⟨s.writeByte Config.irAddr (opcodeOf i), step_of_decode hrst hrun hw hd, hwf, rfl,
    hir.symm ▸ decode_ahead hd, hir.symm, fun a ha => ?_⟩
  have hne : Config.irAddr ≠ a := fun h => ha (h ▸ List.mem_singleton_self _)
  rw [State.readByte_writeByte, if_neg hne]

/-- Settles O7: a step that answers found `rst` released and the machine Running; past the text it only halts. -/
theorem stepGateAndEndOfText : Obligations.StepGateAndEndOfText := by
  refine fun s => ⟨fun hrst t h => ?_, fun hhalt t h => ?_, fun hrst hrun hend => ?_⟩
  · rw [step_of_rst hrst] at h
    cases h
  · obtain ⟨-, hrun, -⟩ := step_next.mp h
    cases hhalt.symm.trans hrun
  · exact step_next.mpr ⟨hrst, hrun, .inl ⟨hend, rfl⟩⟩

/-- Settles O9: at `DP = 7` the cell of each instruction is the opcode byte that its own fetch wrote. -/
theorem irIsTheOperandAtSeven : Obligations.IrIsTheOperandAtSeven := by
  refine fun s hs hdp => ⟨fun hb => ?_, fun hb => ?_, fun hb => ?_⟩
  · rw [step_of_encodes hs (i := .inc) (fun _ => rfl) hb]
    exact State.updateCell_latched hs hdp 0x2B (· + 1)
  · rw [step_of_encodes hs (i := .dec) (fun _ => rfl) hb]
    exact State.updateCell_latched hs hdp 0x2D (· + 255)
  · rw [step_of_encodes hs (i := .out) (fun _ => rfl) hb]
    exact execOut_latched hs hdp 0x2E

/-- Settles O30: the encodings are rows of the table of R80, and each instruction is one update of the state. -/
theorem haltAndNopAct : Obligations.HaltAndNopAct := by
  obtain ⟨hrows, -, -, hunlisted⟩ := everyByteSelectsItsRow
  exact ⟨hrows (0x3B, .halt) (by decide), hunlisted, fun _ => ⟨rfl, fun _ => rfl⟩⟩

end Sys2Proof.Proofs
end

section
/-! SUPPORT. The pointer moves as a step with a wrap, the byte counted up and down modulo 256, and what an
instruction that replaces its cell does to the bytes, alone and after its fetch (R120 to R124). -/

namespace Sys2Proof.Machine

open Sys2Proof Sys2Proof.Claims

variable {s : State}

/-- `(DP + 1) mod MEM_SIZE`: one further, or 0 at the top (R120). -/
theorem succ_mod_eq_ite {d n : Nat} (h : d < n) : (d + 1) % n = if d + 1 = n then 0 else d + 1 := by
  split
  · next htop => rw [htop, Nat.mod_self]
  · next hbelow => exact Nat.mod_eq_of_lt (Nat.lt_of_le_of_ne h hbelow)

/-- `(DP + MEM_SIZE − 1) mod MEM_SIZE`: one back, or the top at 0 (R121). -/
theorem pred_mod_eq_ite {d n : Nat} (h : d < n) : (d + n - 1) % n = if d = 0 then n - 1 else d - 1 := by
  split
  · next hzero =>
    rw [hzero, Nat.zero_add]
    exact Nat.mod_eq_of_lt (by omega)
  · next hpos =>
    have hsum : d + n - 1 = d - 1 + n := by omega
    rw [hsum, Nat.add_mod_right]
    exact Nat.mod_eq_of_lt (by omega)

/-- `(a + 1) mod 256`: one more, or 0 after 255 (R122). -/
theorem byte_add_one_eq_ite (a : Byte) : a + 1 = if a = 255 then 0 else BitVec.ofNat 8 (a.toNat + 1) := by
  split
  · next hmax => rw [hmax]; rfl
  · bv_omega

/-- `(a + 255) mod 256`: one less, or 255 before 0 (R123). -/
theorem byte_add_255_eq_ite (a : Byte) : a + 255 = if a = 0 then 255 else BitVec.ofNat 8 (a.toNat - 1) := by
  split
  · next hzero => rw [hzero]; rfl
  · bv_omega

/-- Counting down undoes counting up (R122, R123). -/
theorem byte_add_one_add_255 (a : Byte) : a + 1 + 255 = a := by bv_omega

/-- An instruction that replaces its cell writes that cell and no other byte, sets no flag, and falls through. -/
theorem State.updateCell_writesCell (hs : s.cellInRange) (f : Byte → Byte) {v : Byte} (hv : f s.cell = v) :
    ∃ t, s.updateCell f = .next t ∧ WritesCell v s t := by
  subst hv
  refine ⟨_, State.updateCell_next.mpr ⟨hs, rfl⟩, rfl, by simp, fun a ha => ?_⟩
  have hne : s.dp ≠ a := fun h => ha (h ▸ List.mem_singleton_self _)
  rw [State.readByte_advance, State.readByte_writeByte, if_neg hne]

/-- With the data pointer off `IR`, the fetch leaves the cell. -/
theorem State.cell_latched_of_ne (hdp : s.dp ≠ Config.irAddr) (b : Byte) :
    (s.writeByte Config.irAddr b).cell = s.cell := by
  simp [State.cell, hdp.symm]

/-- With the data pointer off `IR`, an instruction that replaces its cell, run after its fetch, changes `IR` and
the cell. -/
theorem State.updateCell_fetched (hs : s.cellInRange) (hdp : s.dp ≠ Config.irAddr) (f : Byte → Byte) (b : Byte) :
    ∃ t, (s.writeByte Config.irAddr b).updateCell f = .next t ∧ FallsThrough s t ∧
      ∀ a, t.readByte a = if a = s.dp then f s.cell else if a = Config.irAddr then b else s.readByte a := by
  obtain ⟨t, ht, hfall, hcell, hkeeps⟩ :=
    State.updateCell_writesCell (s := s.writeByte Config.irAddr b) hs f
      (congrArg f (State.cell_latched_of_ne hdp b))
  refine ⟨t, ht, hfall, fun a => ?_⟩
  split
  · next ha => exact ha ▸ hcell
  · next ha => simpa [eq_comm] using hkeeps a (mt List.mem_singleton.mp ha)

/-- Two cell instructions, each after its fetch, of which the second undoes the first: only `IR` and PC differ. -/
theorem State.updateCell_undone (hs : s.cellInRange) (hdp : s.dp ≠ Config.irAddr) {f g : Byte → Byte}
    (hgf : ∀ a, g (f a) = a) (b c : Byte) :
    ∃ t u, (s.writeByte Config.irAddr b).updateCell f = .next t ∧
      (t.writeByte Config.irAddr c).updateCell g = .next u ∧
      u = { s with mem := u.mem, pc := s.pc + 2 } ∧
      ∀ a, u.readByte a = if a = Config.irAddr then c else s.readByte a := by
  obtain ⟨t, ht, hst, hread_t⟩ := State.updateCell_fetched hs hdp f b
  unfold FallsThrough at hst
  have hdp_t : t.dp = s.dp := by rw [hst]
  have hsize_t : t.memSize = s.memSize := by rw [hst]
  obtain ⟨u, hu, htu, hread_u⟩ :=
    State.updateCell_fetched (s := t) (by rwa [State.cellInRange, hdp_t, hsize_t]) (hdp_t ▸ hdp) g c
  have hrestored : g t.cell = s.readByte s.dp := by
    rw [State.cell, hdp_t, hread_t, if_pos rfl, hgf, State.cell]
  refine ⟨t, u, ht, hu, ?_, fun a => ?_⟩
  · rw [htu, hst]
  · rw [hread_u, hread_t, hrestored, hdp_t]
    by_cases ha : a = s.dp
    · simp [ha, hdp]
    · simp only [if_neg ha]
      split <;> rfl

end Sys2Proof.Machine
end

section
/-! The statements about the pointer and the cell (spec/41_pointer_and_cell.md). -/

namespace Sys2Proof.Proofs

open Sys2Proof Sys2Proof.Machine Sys2Proof.Claims

/-- Settles O12: 255 more after one more is the byte itself modulo 256, and neither fetch touches the cell. -/
theorem incThenDecRestoresTheCell : Obligations.IncThenDecRestoresTheCell := by
  intro s hs hdp
  obtain ⟨t, u, hinc, hdec, hu, hread⟩ :=
    State.updateCell_undone hs hdp (f := (· + 1)) (g := (· + 255)) byte_add_one_add_255 0x2B 0x2D
  refine ⟨t, u, hinc, hdec, hu, fun a ha => ?_, ?_⟩
  · rw [hread, if_neg (mt List.mem_singleton.mpr ha)]
  · rw [hread, if_pos rfl]

/-- Settles O10: the two moves modulo MEM_SIZE, with the wrap at either end of memory written as a case. -/
theorem pointerMovesWrap : Obligations.PointerMovesWrap := by
  obtain ⟨hrows, -⟩ := everyByteSelectsItsRow
  refine ⟨hrows (0x3E, .incp) (by decide), hrows (0x3C, .decp) (by decide), fun s hdp => ?_⟩
  rw [← succ_mod_eq_ite hdp, ← pred_mod_eq_ite hdp]
  exact ⟨rfl, rfl⟩

/-- Settles O11: each of the three replaces its cell, by one more, by 255 more, by 0. -/
theorem cellInstructionsWriteTheCell : Obligations.CellInstructionsWriteTheCell := by
  obtain ⟨hrows, -⟩ := everyByteSelectsItsRow
  refine ⟨hrows (0x2B, .inc) (by decide), hrows (0x2D, .dec) (by decide), hrows (0x30, .zero) (by decide),
    fun s hs => ⟨?_, ?_, ?_⟩⟩
  · exact State.updateCell_writesCell hs (· + 1) (byte_add_one_eq_ite s.cell)
  · exact State.updateCell_writesCell hs (· + 255) (byte_add_255_eq_ite s.cell)
  · exact State.updateCell_writesCell hs (fun _ => 0) rfl

end Sys2Proof.Proofs
end

section
/-! SUPPORT. What `.` and `,` do where they complete, and the step at a `,`: the fetch writes `IR` and leaves the
bytes the host presents (R101, R142 to R144). -/

namespace Sys2Proof.Machine

open Sys2Proof Sys2Proof.Claims

variable {s : State} {b : Byte} {later : List Byte}

/-- `.` puts the cell at the end of the output stream and falls through (R143). -/
theorem execOut_emits (hs : s.cellInRange) : execOut s = .next (s.emit s.cell).advance :=
  State.withCell_next.mpr ⟨hs, rfl⟩

/-- `,` takes the first byte the host presents through INBUF, which it leaves empty, and stores it in the cell
(R142, R144). -/
theorem execInp_stores (hs : s.cellInRange) (hin : s.input = b :: later) :
    ∃ t, execInp s = .next t ∧
      t = { s with mem := t.mem, pc := s.pc + 1, input := later, inbuf := none } ∧
      t.readByte s.dp = b ∧ KeepsBytesBut [s.dp] s t := by
  obtain ⟨t, ht, hwrites⟩ :=
    State.updateCell_writesCell (s := (s.fillInbuf b later).clearInbuf) hs (fun _ => b) rfl
  exact ⟨t, State.takeInput_next.mpr ⟨b, later, hin, ht⟩, hwrites⟩

/-- The step at a `,` with no byte presented waits (R142, R145). -/
theorem step_inp_waits (hs : Ready s) (hb : s.text[s.pc]? = some 0x2C) (hin : s.input = []) :
    step s = .fault .awaitingInput := by
  rw [step_of_encodes hs (i := .inp) (fun _ => rfl) hb]
  exact exec_inp_waits (s := s.writeByte Config.irAddr 0x2C) hin

/-- The step at a `,` with a byte presented stores it in the cell, whatever the fetch wrote there, and takes no
other byte (R101, R144). -/
theorem step_inp_stores (hs : Ready s) (hdp : s.dp < s.memSize) (hb : s.text[s.pc]? = some 0x2C)
    (hin : s.input = b :: later) :
    ∃ t, step s = .next t ∧ t.readByte s.dp = b ∧ t.input = later ∧ t.pc = s.pc + 1 := by
  have ⟨_, _, hw⟩ := hs
  obtain ⟨t, ht, hst, hcell, -⟩ :=
    execInp_stores (s := s.writeByte Config.irAddr 0x2C) ⟨hw, hdp⟩ hin
  refine ⟨t, (step_of_encodes hs (i := .inp) (fun _ => rfl) hb).trans ht, hcell, ?_, ?_⟩
  · rw [hst]
  · rw [hst, State.writeByte_pc]

end Sys2Proof.Machine
end

section
/-! The statements about input and output (spec/42_io.md). -/

namespace Sys2Proof.Proofs

open Sys2Proof Sys2Proof.Machine Sys2Proof.Claims

/-- Settles O13: the emitted byte and the fall-through are the only updates. -/
theorem outEmitsTheCell : Obligations.OutEmitsTheCell := by
  obtain ⟨hrows, -⟩ := everyByteSelectsItsRow
  exact ⟨hrows (0x2E, .out) (by decide), fun _ hs => execOut_emits hs⟩

/-- Settles O15: by whether the host presents a byte. -/
theorem inStoresThePresentedByte : Obligations.InStoresThePresentedByte := by
  obtain ⟨hrows, -⟩ := everyByteSelectsItsRow
  refine ⟨hrows (0x2C, .inp) (by decide), fun s => ⟨fun hin t ht => ?_, fun b later hin hs => ?_⟩⟩
  · rw [exec_inp_waits hin] at ht
    cases ht
  · exact execInp_stores hs hin

/-- Settles O16: presenting a byte changes the input list alone, so the same `,` is fetched and finds it. -/
theorem inputWaitEndsWithTheByte : Obligations.InputWaitEndsWithTheByte := by
  intro s hs hdp hb hin
  have ⟨hrst, hrun, _⟩ := hs
  refine ⟨step_inp_waits hs hb hin, (inReqMarksTheInputStep s).mpr ⟨hrst, hrun, hb⟩, fun b => ?_⟩
  have hpresented : (s.presentInput b).input = [b] := by rw [State.presentInput_input, hin, List.nil_append]
  exact step_inp_stores (s := s.presentInput b) hs hdp hb hpresented

end Sys2Proof.Proofs
end

section
/-! SUPPORT. The scan of R161 in terms of the nesting depth, and the matched pair that both of its directions
find. -/

namespace Sys2Proof.Machine

open Sys2Proof Sys2Proof.Claims

variable {text : List Byte} {p m : Nat}

/-- By how much a scan of these bytes raises the nesting depth of R161. -/
def rise (up down : Byte) (bytes : List Byte) : Int := (bytes.count up : Int) - (bytes.count down : Int)

section
variable {up down : Byte}

theorem depthAfter_eq_rise (bytes : List Byte) : depthAfter up down bytes = 1 + rise up down bytes := rfl

@[simp] theorem rise_nil : rise up down [] = 0 := rfl

theorem rise_append (l₁ l₂ : List Byte) : rise up down (l₁ ++ l₂) = rise up down l₁ + rise up down l₂ := by
  simp only [rise, List.count_append]
  omega

theorem rise_cons (b : Byte) (t : List Byte) : rise up down (b :: t) = rise up down [b] + rise up down t :=
  rise_append [b] t

@[simp] theorem rise_reverse (bytes : List Byte) : rise up down bytes.reverse = rise up down bytes := by
  simp [rise]

theorem rise_swap (bytes : List Byte) : rise down up bytes = -rise up down bytes := by
  unfold rise
  omega

/-- The depth after a scan of a stretch of the text, by the rises up to its two ends. -/
theorem depthAfter_slice {i j : Nat} (h : i ≤ j) (text : List Byte) :
    depthAfter up down ((text.take j).drop i) =
      1 + (rise up down (text.take j) - rise up down (text.take i)) := by
  have hsplit := rise_append (up := up) (down := down) ((text.take j).take i) ((text.take j).drop i)
  rw [List.take_append_drop, List.take_take, Nat.min_eq_left h] at hsplit
  rw [depthAfter_eq_rise]
  omega

theorem rise_take_succ {b : Byte} (h : text[m]? = some b) :
    rise up down (text.take (m + 1)) = rise up down (text.take m) + rise up down [b] := by
  rw [List.take_add_one, h, rise_append]
  rfl

theorem rise_take_succ_up (hne : up ≠ down) (h : text[m]? = some up) :
    rise up down (text.take (m + 1)) = rise up down (text.take m) + 1 := by
  rw [rise_take_succ h]
  simp [rise, hne]

theorem rise_take_succ_down (hne : up ≠ down) (h : text[m]? = some down) :
    rise up down (text.take (m + 1)) = rise up down (text.take m) - 1 := by
  rw [rise_swap, rise_take_succ_up hne.symm h, rise_swap (bytes := text.take m)]
  omega

/-- Only the byte `up` raises the depth. -/
theorem getElem?_of_rise_lt (h : rise up down (text.take m) < rise up down (text.take (m + 1))) :
    text[m]? = some up := by
  cases hb : text[m]? with
  | none => simp [List.take_add_one, hb] at h
  | some b =>
    have hrise : 0 < rise up down [b] := by
      rw [rise_take_succ hb] at h
      omega
    have hcount : 0 < [b].count up := by
      unfold rise at hrise
      omega
    rw [List.mem_singleton.mp (List.count_pos_iff.mp hcount)]

/-- One byte moves the depth as the scan of R161 does; a depth above 0 has room for the fall. -/
theorem scanDepth_eq_add_rise (hne : up ≠ down) {depth : Nat} (hd : 0 < depth) (b : Byte) :
    ((if b = up then depth + 1 else if b = down then depth - 1 else depth : Nat) : Int) =
      depth + rise up down [b] := by
  by_cases hup : b = up
  · simp [rise, hup, hne]
  · by_cases hdown : b = down
    · simp [rise, hdown, hne.symm, Nat.cast_pred hd, sub_eq_add_neg]
    · simp [rise, hup, hdown]

/-- The scan stops at the first byte that brings the depth to 0 (R161). -/
theorem scanMatch_eq_some_iff (hne : up ≠ down) {bytes : List Byte} {depth k : Nat} (hd : 0 < depth) :
    scanMatch up down bytes depth = some k ↔
      k < bytes.length ∧ depth + rise up down (bytes.take (k + 1)) = 0 ∧
        ∀ j ≤ k, 0 < depth + rise up down (bytes.take j) := by
  induction bytes generalizing depth k with
  | nil => simp [scanMatch]
  | cons b t ih =>
    have hstep := scanDepth_eq_add_rise hne hd b
    simp only [scanMatch]
    generalize (if b = up then depth + 1 else if b = down then depth - 1 else depth) = d at hstep
    cases k with
    | zero =>
      have hzero : d = 0 ↔ depth + rise up down [b] = 0 := by omega
      simp [hzero, hd]
    | succ k =>
      by_cases hstop : d = 0
      · have hat : ¬ 0 < depth + rise up down [b] := by omega
        rw [if_pos hstop]
        exact iff_of_false nofun fun ⟨_, _, hpos⟩ => hat (hpos 1 (by omega))
      · have hfrom (j : Nat) :
            depth + rise up down ((b :: t).take (j + 1)) = d + rise up down (t.take j) := by
          rw [List.take_succ_cons, rise_cons]
          omega
        have habove : (∀ j ≤ k + 1, 0 < depth + rise up down ((b :: t).take j)) ↔
            ∀ j ≤ k, 0 < d + rise up down (t.take j) := by
          refine ⟨fun h j hj => hfrom j ▸ h (j + 1) (by omega), fun h j hj => ?_⟩
          cases j with
          | zero => simpa using hd
          | succ j => exact hfrom j ▸ h j (by omega)
        rw [hfrom, habove, List.length_cons, Nat.succ_lt_succ_iff, ← ih (Nat.pos_of_ne_zero hstop)]
        simp [hstop]

end

/-- The match of a `[` by its distance: `k` bytes stand between the `[` at `p` and its `]` (R161). -/
theorem forwardMatch_iff_scan {k : Nat} (hm : p + 1 + k = m) :
    ForwardMatch text p m ↔ scanMatch 0x5B 0x5D (text.drop (p + 1)) 1 = some k := by
  have hslice {i j : Nat} (h : i = p + j) : (text.take (i + 1)).drop (p + 1) = (text.drop (p + 1)).take j := by
    rw [List.drop_take]
    congr 1
    omega
  have hlen : (text.drop (p + 1)).length = text.length - (p + 1) := List.length_drop
  rw [scanMatch_eq_some_iff (by decide) Nat.one_pos, ← hslice (i := m) (by omega)]
  constructor
  · rintro ⟨-, hin, hzero, hpos⟩
    refine ⟨by omega, hzero, fun j hj => ?_⟩
    rw [← hslice rfl]
    exact hpos (p + j) (by omega) (by omega)
  · rintro ⟨hin, hzero, hpos⟩
    refine ⟨by omega, by omega, hzero, fun j hpj hjm => ?_⟩
    obtain ⟨j, rfl⟩ := Nat.exists_eq_add_of_le hpj
    rw [hslice rfl]
    exact hpos j (by omega)

/-- `MatchForward` answers exactly the match of R161. -/
theorem matchForward_eq_some_iff : matchForward text p = some m ↔ ForwardMatch text p m := by
  constructor
  · intro h
    obtain ⟨k, hk, hm⟩ := Option.map_eq_some_iff.mp h
    exact (forwardMatch_iff_scan hm).mpr hk
  · intro h
    obtain ⟨k, hm⟩ := Nat.exists_eq_add_of_le (Nat.succ_le_of_lt h.1)
    exact Option.map_eq_some_iff.mpr ⟨k, (forwardMatch_iff_scan hm.symm).mp h, hm.symm⟩

/-- The match of a `]` by its distance: `k` bytes stand between the `[` and the `]` at `p` (R161). -/
theorem backwardMatch_iff_scan {k : Nat} (hm : m + (k + 1) = (text.take p).length) :
    BackwardMatch text p m ↔ scanMatch 0x5D 0x5B (text.take p).reverse 1 = some k := by
  have hslice {i j : Nat} (h : i + j = (text.take p).length) :
      rise 0x5D 0x5B ((text.take p).reverse.take j) = rise 0x5D 0x5B ((text.take p).drop i) := by
    rw [List.take_reverse, rise_reverse, ← h, Nat.add_sub_cancel]
  have hlen : (text.take p).length ≤ p := List.length_take_le p text
  rw [scanMatch_eq_some_iff (by decide) Nat.one_pos, hslice hm, List.length_reverse]
  constructor
  · rintro ⟨-, hzero, hpos⟩
    refine ⟨by omega, hzero, fun j hj => ?_⟩
    rw [hslice (i := (text.take p).length - j) (by omega)]
    exact hpos _ (by omega) (by omega)
  · rintro ⟨-, hzero, hpos⟩
    refine ⟨by omega, hzero, fun j hmj _ => ?_⟩
    rcases Nat.lt_or_ge (text.take p).length j with hout | hin
    · rw [List.drop_eq_nil_of_le hout.le]
      decide
    · have := hpos ((text.take p).length - j) (by omega)
      rwa [hslice (i := j) (by omega)] at this

/-- A match below a `]` is a byte of the text, even where the text ends before the `]` would stand. -/
theorem backwardMatch_lt_length_take (h : BackwardMatch text p m) : m < (text.take p).length := by
  obtain ⟨-, hzero, -⟩ := h
  by_contra hout
  rw [List.drop_eq_nil_of_le (Nat.le_of_not_lt hout)] at hzero
  exact absurd hzero (by decide)

/-- `MatchBackward` answers exactly the match of R161. -/
theorem matchBackward_eq_some_iff : matchBackward text p = some m ↔ BackwardMatch text p m := by
  constructor
  · intro h
    obtain ⟨k, hk, rfl⟩ := Option.map_eq_some_iff.mp h
    have hlt := scanMatch_lt_length hk
    rw [List.length_reverse] at hlt ⊢
    exact (backwardMatch_iff_scan (by omega)).mpr hk
  · intro h
    have hlt := backwardMatch_lt_length_take h
    refine Option.map_eq_some_iff.mpr
      ⟨(text.take p).length - 1 - m, (backwardMatch_iff_scan (by omega)).mp h, ?_⟩
    rw [List.length_reverse]
    omega

/-! ### A matched pair -/

/-- The `[` at `p` and the `]` at `m` belong together: the text between them is nested deeper than the text
before the `[`, and the `]` comes back to that depth. -/
structure BracketPair (text : List Byte) (p m : Nat) : Prop where
  lt : p < m
  opens : text[p]? = some 0x5B
  closes : text[m]? = some 0x5D
  deeper : ∀ j, p < j → j ≤ m → rise 0x5B 0x5D (text.take p) < rise 0x5B 0x5D (text.take j)
  level : rise 0x5B 0x5D (text.take (m + 1)) = rise 0x5B 0x5D (text.take p)

/-- From a `[`, the forward match is the other half of its pair. -/
theorem forwardMatch_iff_bracketPair (hp : text[p]? = some 0x5B) :
    ForwardMatch text p m ↔ BracketPair text p m := by
  have hdepth {j : Nat} (hj : p ≤ j) :
      depthAfter 0x5B 0x5D ((text.take (j + 1)).drop (p + 1)) =
        rise 0x5B 0x5D (text.take (j + 1)) - rise 0x5B 0x5D (text.take p) := by
    rw [depthAfter_slice (Nat.add_le_add_right hj 1), rise_take_succ_up (by decide) hp]
    omega
  constructor
  · rintro ⟨hlt, -, hzero, hpos⟩
    have hdeeper : ∀ j, p < j → j ≤ m → rise 0x5B 0x5D (text.take p) < rise 0x5B 0x5D (text.take j) := by
      rintro (_ | j) hpj hjm
      · omega
      · have := hpos j (by omega) (by omega)
        rw [hdepth (by omega)] at this
        omega
    rw [hdepth hlt.le] at hzero
    have hlevel : rise 0x5B 0x5D (text.take (m + 1)) = rise 0x5B 0x5D (text.take p) := by omega
    have hfall := hdeeper m hlt le_rfl
    refine ⟨hlt, hp, getElem?_of_rise_lt (down := 0x5B) ?_, hdeeper, hlevel⟩
    rw [rise_swap, rise_swap (bytes := text.take (m + 1))]
    omega
  · rintro ⟨hlt, -, hm, hdeeper, hlevel⟩
    refine ⟨hlt, (List.getElem?_eq_some_iff.mp hm).1, ?_, fun j hpj hjm => ?_⟩
    · rw [hdepth hlt.le]
      omega
    · have := hdeeper (j + 1) (by omega) (by omega)
      rw [hdepth hpj]
      omega

/-- From a `]`, the backward match is the other half of its pair. -/
theorem backwardMatch_iff_bracketPair (hm : text[m]? = some 0x5D) :
    BackwardMatch text m p ↔ BracketPair text p m := by
  have hclose := rise_take_succ_down (up := 0x5B) (by decide) hm
  have hdepth {j : Nat} (hj : j ≤ m) :
      depthAfter 0x5D 0x5B ((text.take m).drop j) =
        1 + (rise 0x5B 0x5D (text.take j) - rise 0x5B 0x5D (text.take m)) := by
    rw [depthAfter_slice hj, rise_swap, rise_swap (bytes := text.take j)]
    omega
  constructor
  · rintro ⟨hlt, hzero, hpos⟩
    rw [hdepth hlt.le] at hzero
    have hdeeper : ∀ j, p < j → j ≤ m → rise 0x5B 0x5D (text.take p) < rise 0x5B 0x5D (text.take j) := by
      intro j hpj hjm
      have := hpos j hpj hjm
      rw [hdepth hjm] at this
      omega
    exact ⟨hlt, getElem?_of_rise_lt (hdeeper _ p.lt_succ_self hlt), hm, hdeeper, by omega⟩
  · rintro ⟨hlt, -, -, hdeeper, hlevel⟩
    refine ⟨hlt, ?_, fun j hpj hjm => ?_⟩
    · rw [hdepth hlt.le]
      omega
    · have := hdeeper j hpj hjm
      rw [hdepth hjm]
      omega

/-! ### Where a taken loop goes -/

/-- A matcher that answers exactly the matches `P` sends a taken loop one past the match, or into the fatal
BRACKET_UNMATCHED where there is none (R161, R262). -/
theorem State.landPast_follows {s : State} {matched : Option Nat} {P : Nat → Prop}
    (h : ∀ m, matched = some m ↔ P m) :
    (∀ m, P m → s.landPast matched = .next { s with pc := m + 1 }) ∧
      ((∀ m, ¬ P m) → s.landPast matched = .next (faulted s .bracketUnmatched)) := by
  refine ⟨fun m hm => ?_, fun hnone => ?_⟩
  · exact State.landPast_next.mpr (.inr ⟨m, (h m).mpr hm, rfl⟩)
  · have hmiss : matched = none := Option.eq_none_iff_forall_ne_some.mpr fun m hm => hnone m ((h m).mp hm)
    exact State.landPast_next.mpr (.inl ⟨hmiss, rfl⟩)

theorem exec_loopOpen {s : State} (hs : s.cellInRange) :
    exec .loopOpen s =
      if s.readByte s.dp = 0 then s.landPast (matchForward s.text s.pc) else .next s.advance := if_pos hs

theorem exec_loopClose {s : State} (hs : s.cellInRange) :
    exec .loopClose s =
      if s.readByte s.dp ≠ 0 then s.landPast (matchBackward s.text s.pc) else .next s.advance := if_pos hs

end Sys2Proof.Machine
end

section
/-! The statements about the loops (spec/43_loops.md). -/

namespace Sys2Proof.Proofs

open Sys2Proof Sys2Proof.Machine Sys2Proof.Claims

/-- Settles O17: by the cell, then by whether the `[` has a match. -/
theorem loopOpenFollowsTheMatch : Obligations.LoopOpenFollowsTheMatch := by
  obtain ⟨hrows, -⟩ := everyByteSelectsItsRow
  refine ⟨hrows (0x5B, .loopOpen) (by decide), fun s hs => ?_⟩
  obtain ⟨hland, hfault⟩ := State.landPast_follows (s := s) fun _ => matchForward_eq_some_iff
  rw [exec_loopOpen hs]
  exact ⟨fun hcell => if_neg hcell, fun hcell m hm => (if_pos hcell).trans (hland m hm),
    fun hcell hnone => (if_pos hcell).trans (hfault hnone)⟩

/-- Settles O18: by the cell, then by whether the `]` has a match. -/
theorem loopCloseFollowsTheMatch : Obligations.LoopCloseFollowsTheMatch := by
  obtain ⟨hrows, -⟩ := everyByteSelectsItsRow
  refine ⟨hrows (0x5D, .loopClose) (by decide), fun s hs => ?_⟩
  obtain ⟨hland, hfault⟩ := State.landPast_follows (s := s) fun _ => matchBackward_eq_some_iff
  rw [exec_loopClose hs]
  exact ⟨fun hcell => if_neg (not_not_intro hcell), fun hcell m hm => (if_pos hcell).trans (hland m hm),
    fun hcell hnone => (if_pos hcell).trans (hfault hnone)⟩

/-- Settles O19: both scans find the other half of one matched pair. -/
theorem matchedBracketsAgree : Obligations.MatchedBracketsAgree := by
  refine fun text p m => ⟨fun hp hm => ?_, fun hp hm => ?_⟩
  · have hpair := (forwardMatch_iff_bracketPair hp).mp (matchForward_eq_some_iff.mp hm)
    exact ⟨hpair.closes, matchBackward_eq_some_iff.mpr ((backwardMatch_iff_bracketPair hpair.closes).mpr hpair)⟩
  · have hpair := (backwardMatch_iff_bracketPair hp).mp (matchBackward_eq_some_iff.mp hm)
    exact ⟨hpair.opens, matchForward_eq_some_iff.mpr ((forwardMatch_iff_bracketPair hpair.opens).mpr hpair)⟩

end Sys2Proof.Proofs
end

section
/-! SUPPORT. The byte functions of the ALU bit by bit and as arithmetic, and what the two-operand form does at the
top of memory and below it (R180 to R183). -/

namespace Sys2Proof.Machine

open Sys2Proof Sys2Proof.Claims

variable {s t : State} {i : Instr}

/-! ### Byte functions -/

/-- `255 − a` complements every bit (R187, R195). -/
theorem getLsbD_complement (a : Byte) {k : Nat} (hk : k < 8) : (complement a).getLsbD k = !a.getLsbD k := by
  have hnot : complement a = ~~~a := BitVec.allOnes_sub_eq_not a
  simp [hnot, hk]

/-- `a div 2` moves every bit one place down (R188). -/
theorem getLsbD_shiftRight (a : Byte) (k : Nat) : (shiftRight a).getLsbD k = a.getLsbD (k + 1) := by
  have hshift : shiftRight a = a >>> 1 := by
    unfold shiftRight
    bv_omega
  rw [hshift, BitVec.getLsbD_ushiftRight, Nat.add_comm]

/-- `a div 2` clears bit 7 (R188). -/
theorem getLsbD_shiftRight_seven (a : Byte) : (shiftRight a).getLsbD 7 = false := by
  rw [getLsbD_shiftRight, BitVec.getLsbD_of_ge _ _ (Nat.le_refl 8)]

theorem shiftLeft_eq (a : Byte) : shiftLeft a = a <<< 1 := by
  unfold shiftLeft
  bv_omega

/-- `(a * 2) mod 256` clears bit 0 (R189). -/
theorem getLsbD_shiftLeft_zero (a : Byte) : (shiftLeft a).getLsbD 0 = false := by
  simp [shiftLeft_eq]

/-- `(a * 2) mod 256` moves every bit but the last one place up (R189). -/
theorem getLsbD_shiftLeft_succ (a : Byte) {k : Nat} (hk : k < 7) :
    (shiftLeft a).getLsbD (k + 1) = a.getLsbD k := by
  rw [shiftLeft_eq, BitVec.getLsbD_shiftLeft, decide_eq_true (Nat.succ_lt_succ hk)]
  simp

/-- The byte an exact result is narrowed to is that result modulo 256 (R183). -/
theorem toNat_narrow (r : Int) : ((narrow r).toNat : Int) = r % 256 := by
  rw [narrow, BitVec.toNat_ofInt]
  exact Int.toNat_of_nonneg (Int.emod_nonneg r (by decide))

theorem wraps_eq (r : Int) : wraps r = decide (r < 0 ∨ 255 < r) := (Bool.decide_or _ _).symm

theorem toNat_quotient (a b : Byte) : (quotient a b).toNat = a.toNat / b.toNat := by
  rw [quotient, ← BitVec.udiv_def, BitVec.toNat_udiv]

theorem toNat_remainder (a b : Byte) : (remainder a b).toNat = a.toNat % b.toNat := by
  rw [remainder, ← BitVec.umod_def, BitVec.toNat_umod]

/-- The division equation (R193). -/
theorem quotient_mul_add_remainder (a b : Byte) :
    (quotient a b).toNat * b.toNat + (remainder a b).toNat = a.toNat := by
  rw [toNat_quotient, toNat_remainder, Nat.div_add_mod']

theorem remainder_lt (a : Byte) {b : Byte} (hb : b ≠ 0) : (remainder a b).toNat < b.toNat := by
  rw [toNat_remainder]
  exact Nat.mod_lt _ (by bv_omega)

/-! ### Frames of the writes -/

theorem keepsBytesBut_writeByte {written : List Nat} {a : Nat} (h : KeepsBytesBut written s t) (ha : a ∈ written)
    (v : Byte) : KeepsBytesBut written s (t.writeByte a v) := by
  intro a' ha'
  have hne : a ≠ a' := fun heq => ha' (heq ▸ ha)
  rw [State.readByte_writeByte, if_neg hne, h a' ha']

/-- A byte stored at the data pointer, and the fall-through: no flag changes. -/
theorem writesCell_writeByte (s : State) (v : Byte) : WritesCell v s (s.writeByte s.dp v).advance :=
  ⟨rfl, by simp, keepsBytesBut_writeByte (fun _ _ => rfl) (List.mem_singleton_self _) v⟩

/-- A condition bit set, and the fall-through: `M[6]` takes the bit, and no other byte changes (R25, R26). -/
theorem setBit_advance_sets (s : State) (k : StatusBit) :
    FallsThrough s (s.setBit k true).advance ∧
      (s.setBit k true).advance.readByte 6 = s.readByte 6 ||| 1#8 <<< k.index ∧
      KeepsBytesBut [6] s (s.setBit k true).advance :=
  ⟨rfl, by simp [withBit], keepsBytesBut_writeByte (fun _ _ => rfl) (List.mem_singleton_self _) _⟩

/-- The result modulo 256 stored at the data pointer, then OV: with the data pointer at `SR` the OV write lands
on the byte just stored (R181, R183). -/
theorem arithmeticEffect_setBit (s : State) (r : Int) :
    ArithmeticEffect r s ((s.writeByte s.dp (narrow r)).setBit .ov (wraps r)).advance := by
  have hsr : ((s.writeByte s.dp (narrow r)).setBit .ov (wraps r)).advance.readByte 6 =
      withBit (if s.dp = 6 then narrow r else s.readByte 6) 0 (wraps r) := by
    simp [StatusBit.index]
  refine ⟨rfl, narrow r, toNat_narrow r, fun hdp => ?_, ?_, fun k hpos hk => ?_, ?_⟩
  · simp [hdp.symm]
  · rw [hsr, getLsbD_withBit _ _ _ _ (by decide), if_pos rfl, wraps_eq]
  · rw [hsr, getLsbD_withBit _ _ _ _ hk, if_neg (Nat.ne_of_gt hpos)]
  · exact keepsBytesBut_writeByte (keepsBytesBut_writeByte (fun _ _ => rfl) (by simp) _) (by simp) _

/-! ### The two-operand form -/

/-- A two-operand instruction is suppressed at the top of memory, whatever it does to the two cells, and does it
below (R180, R182). -/
theorem onCells_of_withCells {k : Byte → Byte → Result} {effect : State → Prop} (hi : exec i s = s.withCells k)
    (hs : s.cellInRange) (hk : k s.cell s.nextCell = .next t) (ht : effect t) : OnCells i s effect := by
  unfold OnCells
  rw [hi]
  exact ⟨fun htop => ⟨_, State.withCells_next.mpr ⟨hs, .inl ⟨htop, rfl⟩⟩, setBit_advance_sets s .imr⟩,
    fun hbelow => ⟨t, State.withCells_next.mpr ⟨hs, .inr ⟨hbelow, hk⟩⟩, ht⟩⟩

/-- `&`, `|` and `^` store their combination of the two cells (R184 to R186). -/
theorem onCells_combineCells {f : Byte → Byte → Byte} {result : Byte → Prop} (hi : exec i s = s.combineCells f)
    (hs : s.cellInRange) (hf : result (f s.cell s.nextCell)) :
    OnCells i s fun t => ∃ v, WritesCell v s t ∧ result v :=
  onCells_of_withCells hi hs rfl ⟨_, writesCell_writeByte s _, hf⟩

/-- `A`, `M` and `S` store their exact result modulo 256 and record in OV whether that changed it (R190 to R192). -/
theorem onCells_arithmetic {f : Byte → Byte → Int} (hi : exec i s = s.arithmetic f) (hs : s.cellInRange) :
    OnCells i s (ArithmeticEffect (f s.cell s.nextCell) s) :=
  onCells_of_withCells hi hs rfl (arithmeticEffect_setBit s _)

theorem exec_div (s : State) :
    exec .div s = s.withCells fun a b =>
      if b = 0 then .next (s.setBit .dz true).advance
      else .next ((s.writeByte s.dp (quotient a b)).writeByte (s.dp + 1) (remainder a b)).advance := rfl

theorem exec_mod (s : State) :
    exec .mod s = s.withCells fun a b =>
      if b = 0 then .next s.advance else .next (s.writeByte s.dp (remainder a b)).advance := rfl

end Sys2Proof.Machine
end

section
/-! The statements about the ALU (spec/44_alu.md). -/

namespace Sys2Proof.Proofs

open Sys2Proof Sys2Proof.Machine Sys2Proof.Claims

/-- Settles O20: each of the four replaces its cell by a byte known bit by bit. -/
theorem oneOperandAluActsOnBits : Obligations.OneOperandAluActsOnBits := by
  obtain ⟨hrows, -⟩ := everyByteSelectsItsRow
  refine ⟨hrows (0x7E, .not) (by decide), hrows (0x21, .notb) (by decide), hrows (0x23, .shr) (by decide),
    hrows (0x40, .shl) (by decide), fun s hs => ⟨fun i hi => ?_, ?_, ?_⟩⟩
  · have hexec : exec i s = s.updateCell complement := by
      obtain rfl | rfl : i = .not ∨ i = .notb := by simpa using hi
      · rfl
      · rfl
    obtain ⟨t, ht, hwrites⟩ := State.updateCell_writesCell hs complement rfl
    exact ⟨_, t, hexec.trans ht, hwrites, fun _ hk => getLsbD_complement s.cell hk⟩
  · obtain ⟨t, ht, hwrites⟩ := State.updateCell_writesCell hs shiftRight rfl
    exact ⟨_, t, ht, hwrites, getLsbD_shiftRight_seven s.cell, fun k _ => getLsbD_shiftRight s.cell k⟩
  · obtain ⟨t, ht, hwrites⟩ := State.updateCell_writesCell hs shiftLeft rfl
    exact ⟨_, t, ht, hwrites, getLsbD_shiftLeft_zero s.cell, fun _ hk => getLsbD_shiftLeft_succ s.cell hk⟩

/-- Settles O21: each of the three stores the bitwise operation on the two cells. -/
theorem bitwiseAluCombinesTheCells : Obligations.BitwiseAluCombinesTheCells := by
  obtain ⟨hrows, -⟩ := everyByteSelectsItsRow
  refine ⟨hrows (0x26, .and) (by decide), hrows (0x7C, .or) (by decide), hrows (0x5E, .xor) (by decide),
    fun s hs => ⟨?_, ?_, ?_⟩⟩
  · exact onCells_combineCells (f := (· &&& ·)) rfl hs fun _ _ => BitVec.getLsbD_and
  · exact onCells_combineCells (f := (· ||| ·)) rfl hs fun _ _ => BitVec.getLsbD_or
  · exact onCells_combineCells (f := (· ^^^ ·)) rfl hs fun _ _ => BitVec.getLsbD_xor

/-- Settles O23: each of the three is the arithmetic form with its exact result. -/
theorem arithmeticRecordsOverflow : Obligations.ArithmeticRecordsOverflow := by
  obtain ⟨hrows, -⟩ := everyByteSelectsItsRow
  refine ⟨hrows (0x41, .add) (by decide), hrows (0x4D, .mul) (by decide), hrows (0x53, .sub) (by decide),
    fun s hs => ⟨?_, ?_, ?_⟩⟩
  · exact onCells_arithmetic (f := exactAdd) rfl hs
  · exact onCells_arithmetic (f := exactMul) rfl hs
  · exact onCells_arithmetic (f := exactSub) rfl hs

/-- Settles O24: by whether the divisor is zero. -/
theorem divideGivesQuotientAndRemainder : Obligations.DivideGivesQuotientAndRemainder := by
  obtain ⟨hrows, -⟩ := everyByteSelectsItsRow
  refine ⟨hrows (0x44, .div) (by decide), fun s hs => ?_⟩
  by_cases hb : s.readByte (s.dp + 1) = 0
  · obtain ⟨hfall, hset, hkeeps⟩ := setBit_advance_sets s .dz
    simp only [if_pos hb]
    exact onCells_of_withCells (exec_div s) hs (if_pos hb) ⟨hfall, hset, hkeeps⟩
  · simp only [if_neg hb]
    refine onCells_of_withCells (exec_div s) hs (if_neg hb) ⟨rfl, ?_, ?_, ?_⟩
    · simpa [State.cell, State.nextCell] using quotient_mul_add_remainder s.cell s.nextCell
    · simpa [State.nextCell] using remainder_lt s.cell hb
    · exact keepsBytesBut_writeByte (keepsBytesBut_writeByte (fun _ _ => rfl) (by simp) _) (by simp) _

/-- Settles O25: by whether the divisor is zero. -/
theorem modulusGivesRemainder : Obligations.ModulusGivesRemainder := by
  obtain ⟨hrows, -⟩ := everyByteSelectsItsRow
  refine ⟨hrows (0x25, .mod) (by decide), fun s hs => ?_⟩
  by_cases hb : s.readByte (s.dp + 1) = 0
  · simp only [if_pos hb]
    exact onCells_of_withCells (exec_mod s) hs (if_pos hb) rfl
  · simp only [if_neg hb]
    exact onCells_of_withCells (exec_mod s) hs (if_neg hb)
      ⟨remainder s.cell s.nextCell, (quotient s.cell s.nextCell).toNat, writesCell_writeByte s _,
        remainder_lt s.cell hb, quotient_mul_add_remainder s.cell s.nextCell⟩

/-- Settles O22: the clauses of the eight about the top of memory, together. -/
theorem topOfMemorySetsRangeBit : Obligations.TopOfMemorySetsRangeBit := by
  intro i hi s hw htop
  have hs : s.cellInRange := ⟨hw, Nat.lt_of_succ_le htop.le⟩
  obtain ⟨-, -, -, hbitwise⟩ := bitwiseAluCombinesTheCells
  obtain ⟨⟨hand, -⟩, ⟨hor, -⟩, ⟨hxor, -⟩⟩ := hbitwise s hs
  obtain ⟨-, -, -, harithmetic⟩ := arithmeticRecordsOverflow
  obtain ⟨⟨hadd, -⟩, ⟨hmul, -⟩, ⟨hsub, -⟩⟩ := harithmetic s hs
  obtain ⟨hdiv, -⟩ := divideGivesQuotientAndRemainder.2 s hs
  obtain ⟨hmod, -⟩ := modulusGivesRemainder.2 s hs
  simp only [twoOperand, List.mem_cons, List.not_mem_nil, or_false] at hi
  rcases hi with rfl | rfl | rfl | rfl | rfl | rfl | rfl | rfl
  exacts [hand htop, hor htop, hxor htop, hadd htop, hmul htop, hsub htop, hdiv htop, hmod htop]

end Sys2Proof.Proofs
end

section
/-! SUPPORT. The call stack and the label lookup as the control transfers use them: a return address as the two bytes
of its entry, and what `J`, `C` and `R` do where they complete and where they fault (R236 to R242). -/

namespace Sys2Proof.Machine

open Sys2Proof Sys2Proof.Claims

variable {s : State} {l : LabelOperand} {a : Nat}

/-! ### Return addresses -/

/-- An entry of the call stack read back as a number: the high byte lies at the lower address (R63). -/
theorem State.toNat_readWord (s : State) (addr : Nat) :
    (s.readWord addr).toNat = (s.readByte addr).toNat * 256 + (s.readByte (addr + 1)).toNat := by
  have hlow : (s.readByte (addr + 1)).toNat < 2 ^ 8 := (s.readByte (addr + 1)).isLt
  rw [State.readWord, BitVec.toNat_append, ← Nat.shiftLeft_add_eq_or_of_lt hlow, Nat.shiftLeft_eq]

theorem highByte_append_lowByte (w : ReturnAddress) : highByte w ++ lowByte w = w :=
  BitVec.extractLsb'_append_extractLsb'_eq_extractLsb' rfl |>.trans BitVec.extractLsb'_eq_self

/-- A push reads back as what was pushed (R63). -/
@[simp] theorem State.readWord_writeWord (s : State) (addr : Nat) (w : ReturnAddress) :
    (s.writeWord addr w).readWord addr = w := by
  simp [State.readWord, highByte_append_lowByte]

/-- A call's length in the text is that of its opcode, gap, sigil and name (R84). -/
theorem lengthOf_call (l : LabelOperand) :
    lengthOf (.call l) = 1 + l.gap.length + (if l.sigil then 1 else 0) + l.name.length := by
  simp only [lengthOf, encode, operandBytes, List.length_cons, List.length_append, apply_ite List.length,
    List.length_nil, Nat.zero_add]
  omega

/-! ### Label lookup -/

/-- The model's lookup is the library's: the first entry of a name (R238). -/
theorem LabelTable.lookup_eq_resolve (lt : LabelTable) (name : List Byte) : lt.lookup name = lt.resolve name := by
  induction lt with
  | nil => rfl
  | cons e t ih =>
    obtain ⟨k, b⟩ := e
    by_cases hk : k = name
    · simp [LabelTable.resolve, hk]
    · have hbeq : (name == k) = false := beq_eq_false_iff_ne.mpr (Ne.symm hk)
      simp only [List.lookup_cons, hbeq, LabelTable.resolve, if_neg hk, ih]

/-! ### `J` -/

theorem exec_jmp_of_resolved (ha : s.labels.lookup l.name = some a) : exec (.jmp l) s = .next (s.setPc a) :=
  State.resolve_next.mpr (.inr ⟨a, LabelTable.lookup_eq_resolve _ _ ▸ ha, rfl⟩)

theorem exec_jmp_of_unresolved (hnone : s.labels.lookup l.name = none) :
    exec (.jmp l) s = .next (s.raiseFault .labelUnresolved) :=
  State.resolve_next.mpr (.inl ⟨LabelTable.lookup_eq_resolve _ _ ▸ hnone, rfl⟩)

/-! ### `C` -/

/-- The state a `C` leaves when its label resolves and the stack has room: the index past its operand is on the
stack, and PC is the label's address (R236, R241). -/
def State.called (s : State) (l : LabelOperand) (a : Nat) : State :=
  ((s.setSp (s.sp - 2)).writeWord (s.sp - 2) (BitVec.ofNat 16 (s.pc + lengthOf (.call l)))).setPc a

theorem exec_call_of_resolved (ha : s.labels.lookup l.name = some a) (hroom : 18 ≤ s.sp) (hsp : s.sp ≤ s.memSize) :
    exec (.call l) s = .next (s.called l a) :=
  State.resolve_next.mpr (.inr ⟨a, LabelTable.lookup_eq_resolve _ _ ▸ ha,
    State.push_next.mpr (.inr ⟨hroom, hsp, rfl⟩)⟩)

theorem exec_call_of_unresolved (hnone : s.labels.lookup l.name = none) :
    exec (.call l) s = .next (s.raiseFault .labelUnresolved) :=
  State.resolve_next.mpr (.inl ⟨LabelTable.lookup_eq_resolve _ _ ▸ hnone, rfl⟩)

/-- The overflow is found after the lookup and before any write (R236, R264). -/
theorem exec_call_of_full (ha : s.labels.lookup l.name = some a) (hfull : s.sp < 18) :
    exec (.call l) s = .next (s.raiseFault .stackOverflow) :=
  State.resolve_next.mpr (.inr ⟨a, LabelTable.lookup_eq_resolve _ _ ▸ ha, State.push_next.mpr (.inl ⟨hfull, rfl⟩)⟩)

/-- A call changes the two bytes of its stack entry, SP and PC. -/
theorem State.called_eq (s : State) (l : LabelOperand) (a : Nat) :
    s.called l a = { s with mem := (s.called l a).mem, sp := s.sp - 2, pc := a } := rfl

theorem State.readWord_called (s : State) (l : LabelOperand) (a : Nat) :
    (s.called l a).readWord (s.sp - 2) = BitVec.ofNat 16 (s.pc + lengthOf (.call l)) :=
  State.readWord_writeWord _ _ _

theorem State.keepsBytesBut_called (hroom : 18 ≤ s.sp) (l : LabelOperand) (a : Nat) :
    KeepsBytesBut [s.sp - 2, s.sp - 1] s (s.called l a) := by
  have hlow : s.sp - 2 + 1 = s.sp - 1 := by omega
  refine keepsBytesBut_writeByte (keepsBytesBut_writeByte (fun _ _ => rfl) (by simp) _) ?_ _
  simp [hlow]

/-! ### `R` -/

theorem exec_ret (s : State) : exec .ret s = s.pop fun a s => .next (s.setPc a.toNat) := rfl

theorem exec_ret_of_entry (hsp : s.sp + 2 ≤ s.memSize) :
    exec .ret s = .next ((s.setSp (s.sp + 2)).setPc (s.readWord s.sp).toNat) :=
  (exec_ret s).trans (State.pop_next.mpr (.inr ⟨hsp, rfl⟩))

theorem exec_ret_of_empty (hsp : s.memSize < s.sp + 2) : exec .ret s = .next (s.raiseFault .stackUnderflow) :=
  (exec_ret s).trans (State.pop_next.mpr (.inl ⟨hsp, rfl⟩))

/-- A byte written outside a stack entry leaves the entry. -/
theorem State.readWord_writeByte_of_ne {b addr : Nat} (hhigh : b ≠ addr) (hlow : b ≠ addr + 1) (v : Byte) :
    (s.writeByte b v).readWord addr = s.readWord addr := by
  simp [State.readWord, hhigh, hlow]

/-- The `R` a call lands on takes back the address the call pushed: its own fetch writes `IR`, which lies below
the stack (R33, R243). -/
theorem exec_ret_after_called (hroom : 18 ≤ s.sp) (hsp : s.sp ≤ s.memSize)
    (hend : s.pc + lengthOf (.call l) ≤ 65535) (v : Byte) :
    exec .ret ((s.called l a).writeByte Config.irAddr v) =
      .next ((((s.called l a).writeByte Config.irAddr v).setSp s.sp).setPc (s.pc + lengthOf (.call l))) := by
  have hentry : s.sp - 2 + 2 = s.sp := by omega
  have hword : (((s.called l a).writeByte Config.irAddr v).readWord (s.sp - 2)).toNat =
      s.pc + lengthOf (.call l) := by
    have hhigh : Config.irAddr ≠ s.sp - 2 := by simp only [Config.irAddr]; omega
    have hlow : Config.irAddr ≠ s.sp - 2 + 1 := by simp only [Config.irAddr]; omega
    rw [State.readWord_writeByte_of_ne hhigh hlow, State.readWord_called, BitVec.toNat_ofNat,
      Nat.mod_eq_of_lt (Nat.lt_succ_of_le hend)]
  have hspu : ((s.called l a).writeByte Config.irAddr v).sp = s.sp - 2 := rfl
  rw [exec_ret_of_entry (by rw [hspu, hentry]; exact hsp), hspu, hword, hentry]

end Sys2Proof.Machine
end

section
/-! SUPPORT. The lines of a text, the name a line declares, and the table the pre-pass builds from them
(R231 to R234). -/

namespace Sys2Proof.Machine

open Sys2Proof Sys2Proof.Claims

/-! ### Lines -/

/-- The lines of R231 are the library's pieces between separators. -/
theorem splitLines_eq_splitOn (text : List Byte) : splitLines text = text.splitOn Config.lf := by
  induction text with
  | nil => rfl
  | cons b t ih =>
    obtain ⟨l, ls, hl⟩ := List.exists_cons_of_ne_nil (List.splitOn_ne_nil Config.lf t)
    rw [splitLines, List.splitOn_cons_eq_if_modifyHead, ih, hl]
    simp only [beq_iff_eq, List.modifyHead_cons]

/-- No piece between separators holds the separator. -/
theorem not_mem_of_mem_splitOn {sep : Byte} {text piece : List Byte} (h : piece ∈ text.splitOn sep) :
    sep ∉ piece := by
  induction text generalizing piece with
  | nil =>
    cases List.mem_singleton.mp (List.splitOn_nil sep ▸ h)
    exact List.not_mem_nil
  | cons b t ih =>
    rw [List.splitOn_cons_eq_if_modifyHead] at h
    obtain ⟨l, ls, hl⟩ := List.exists_cons_of_ne_nil (List.splitOn_ne_nil sep t)
    rw [hl] at h ih
    by_cases hb : b = sep
    · simp only [hb, beq_self_eq_true, if_true, List.mem_cons] at h
      rcases h with rfl | h
      · exact List.not_mem_nil
      · exact ih (List.mem_cons.mpr h)
    · simp only [beq_eq_false_iff_ne.mpr hb, Bool.false_eq_true, if_false, List.modifyHead_cons,
        List.mem_cons] at h
      rcases h with rfl | h
      · exact List.not_mem_cons_of_ne_of_not_mem (Ne.symm hb) (ih List.mem_cons_self)
      · exact ih (List.mem_cons_of_mem _ h)

/-! ### Names -/

theorem isWs_iff {b : Byte} : isWs b = true ↔ b ∈ Config.whitespace := List.contains_iff_mem

/-- Trimming takes whitespace off both ends until a byte that is none stands there, or nothing is left (R232). -/
theorem trimWs_split (bytes : List Byte) :
    ∃ lead trail, bytes = lead ++ trimWs bytes ++ trail ∧ (∀ b ∈ lead ++ trail, isWs b = true) ∧
      ∀ b, (trimWs bytes).head? = some b ∨ (trimWs bytes).getLast? = some b → isWs b = false := by
  have htrim : trimWs bytes = (bytes.dropWhile isWs).rdropWhile isWs := rfl
  refine ⟨bytes.takeWhile isWs, (bytes.dropWhile isWs).rtakeWhile isWs, ?_, fun b hb => ?_, fun b hb => ?_⟩
  · rw [htrim, List.append_assoc, List.rdropWhile_append_rtakeWhile, List.takeWhile_append_dropWhile]
  · exact (List.mem_append.mp hb).elim List.mem_takeWhile_imp List.mem_rtakeWhile_imp
  · rw [htrim] at hb
    rcases hb with hhead | hlast
    · have hdrop : (bytes.dropWhile isWs).head? = some b := by
        obtain ⟨trail, htrail⟩ := List.rdropWhile_prefix isWs (bytes.dropWhile isWs)
        rw [← htrail, List.head?_append, hhead, Option.some_or]
      simpa [hdrop] using List.head?_dropWhile_not isWs bytes
    · obtain ⟨hne, rfl⟩ := List.mem_getLast?_eq_getLast hlast
      simpa using List.rdropWhile_last_not isWs _ hne

theorem declaredName_of_not_mem {line : List Byte} (h : Config.colon ∉ line) : declaredName line = none := if_neg h

/-- The colon that counts is the first one (R232). -/
theorem declaredName_of_first_colon {before : List Byte} (h : Config.colon ∉ before) (after : List Byte) :
    declaredName (before ++ Config.colon :: after) = some (trimWs before) := by
  have hname : (before ++ Config.colon :: after).takeWhile (· != Config.colon) = before := by
    refine (takeWhile_dropWhile_iff.mpr ⟨rfl, fun b hb => ?_, fun b hb => ?_⟩).1
    · exact bne_iff_ne.mpr (ne_of_mem_of_not_mem hb h)
    · cases hb; rfl
  rw [declaredName, if_pos (by simp), hname]

/-! ### The table -/

variable {cap : LabelCapacity} {lt lt' : LabelTable} {addr : Nat} {lines : List (List Byte)}

/-- The total length of the lines that declare no label: what `BuildLabels` accounts for them (R233). -/
def accountedLength (lines : List (List Byte)) : Nat :=
  ((lines.filter fun l => (declaredName l).isNone).map List.length).sum

theorem accountedLength_cons_of_none {line : List Byte} (h : declaredName line = none) :
    accountedLength (line :: lines) = line.length + accountedLength lines := by
  simp [accountedLength, h]

theorem accountedLength_cons_of_some {line name : List Byte} (h : declaredName line = some name) :
    accountedLength (line :: lines) = accountedLength lines := by
  simp [accountedLength, h]

/-- Everything the scan can do with a line when it answers a table (R233). -/
theorem scanLines_cons {line : List Byte} (h : scanLines cap lt addr (line :: lines) = some lt') :
    declaredName line = none ∧ scanLines cap lt (addr + line.length) lines = some lt' ∨
      ∃ name, declaredName line = some name ∧ scanLines cap (lt.declare name addr) addr lines = some lt' := by
  unfold scanLines at h
  split at h
  · next hnone => exact .inl ⟨hnone, h⟩
  · next name hname =>
    split at h
    · cases h
    · exact .inr ⟨name, hname, h⟩

/-- The names of the table, each once, are those it began with and those the lines declare (R234). -/
theorem scanLines_keys (hnd : (lt.map Prod.fst).Nodup) (h : scanLines cap lt addr lines = some lt') :
    (lt'.map Prod.fst).Nodup ∧ (lt'.map Prod.fst).toFinset = namesAfter lt lines := by
  induction lines generalizing lt addr with
  | nil =>
    cases h
    exact ⟨hnd, by simp [namesAfter]⟩
  | cons line lines ih =>
    rcases scanLines_cons h with ⟨hnone, h⟩ | ⟨name, hname, h⟩
    · exact namesAfter_cons_of_none hnone lt lines ▸ ih hnd h
    · exact namesAfter_cons_of_some hname lt addr lines ▸ ih (LabelTable.nodup_declare hnd name addr) h

/-- Before each line stands the accounted length of the lines above it as the running address (R233). -/
theorem scanLines_of_append {before rest : List (List Byte)} (h : scanLines cap lt addr (before ++ rest) = some lt') :
    ∃ lt₁, scanLines cap lt₁ (addr + accountedLength before) rest = some lt' := by
  induction before generalizing lt addr with
  | nil => exact ⟨lt, h⟩
  | cons line before ih =>
    rcases scanLines_cons h with ⟨hnone, h⟩ | ⟨name, hname, h⟩
    · rw [accountedLength_cons_of_none hnone, ← Nat.add_assoc]
      exact ih h
    · rw [accountedLength_cons_of_some hname]
      exact ih h

/-- Lines that do not declare a name leave its address (R234). -/
theorem scanLines_resolve_of_undeclared {name : List Byte} (hundecl : ∀ l ∈ lines, declaredName l ≠ some name)
    (h : scanLines cap lt addr lines = some lt') : lt'.resolve name = lt.resolve name := by
  induction lines generalizing lt addr with
  | nil =>
    cases h
    rfl
  | cons line lines ih =>
    obtain ⟨hline, hlines⟩ := List.forall_mem_cons.mp hundecl
    rcases scanLines_cons h with ⟨-, h⟩ | ⟨other, hother, h⟩
    · exact ih hlines h
    · have hne : other ≠ name := fun he => hline (he ▸ hother)
      rw [ih hlines h, LabelTable.resolve_declare, if_neg hne]

/-- The last declaration of a name gives its address: the accounted length of the lines before it (R233, R234). -/
theorem scanLines_resolve_of_last {before after : List (List Byte)} {line name : List Byte}
    (hname : declaredName line = some name) (hlast : ∀ l ∈ after, declaredName l ≠ some name)
    (h : scanLines cap lt addr (before ++ line :: after) = some lt') :
    lt'.resolve name = some (addr + accountedLength before) := by
  obtain ⟨lt₁, h₁⟩ := scanLines_of_append h
  rcases scanLines_cons h₁ with ⟨hnone, -⟩ | ⟨other, hother, hafter⟩
  · cases hnone.symm.trans hname
  · cases hother.symm.trans hname
    rw [scanLines_resolve_of_undeclared hlast hafter, LabelTable.resolve_declare, if_pos rfl]

/-- The table has exactly the declared names, each once (R37, R234). -/
theorem buildLabels_keys {text : List Byte} (h : buildLabels cap text = some lt) :
    (lt.map Prod.fst).Nodup ∧ (lt.map Prod.fst).toFinset = (declaredNames text).toFinset := by
  obtain ⟨hnd, hkeys⟩ := scanLines_keys (lt := []) List.nodup_nil h
  refine ⟨hnd, hkeys.trans ?_⟩
  ext name
  simp [namesAfter, declaredNames]

/-- The table has as many entries as there are declared names. -/
theorem buildLabels_length {text : List Byte} (h : buildLabels cap text = some lt) :
    lt.length = (declaredNames text).length := by
  obtain ⟨hnd, hkeys⟩ := buildLabels_keys h
  have hdecl : (declaredNames text).Nodup := List.nodup_dedup _
  have hcard := congrArg Finset.card hkeys
  rwa [List.toFinset_card_of_nodup hnd, List.toFinset_card_of_nodup hdecl, List.length_map] at hcard

theorem buildLabels_lookup_of_undeclared {text name : List Byte} (h : buildLabels cap text = some lt)
    (hname : name ∉ declaredNames text) : lt.lookup name = none := by
  obtain ⟨-, hkeys⟩ := buildLabels_keys h
  rw [LabelTable.lookup_eq_resolve, LabelTable.resolve_eq_none, ← List.mem_toFinset, hkeys, List.mem_toFinset]
  exact hname

theorem buildLabels_lookup_of_last {text line name : List Byte} {k : Nat} (h : buildLabels cap text = some lt)
    (hline : (splitLines text)[k]? = some line) (hname : declaredName line = some name)
    (hlast : ∀ j line', k < j → (splitLines text)[j]? = some line' → declaredName line' ≠ some name) :
    lt.lookup name = some (accountedLength ((splitLines text).take k)) := by
  have hlines : splitLines text = (splitLines text).take k ++ line :: (splitLines text).drop (k + 1) := by
    obtain ⟨hk, rfl⟩ := List.getElem?_eq_some_iff.mp hline
    rw [← List.drop_eq_getElem_cons hk, List.take_append_drop]
  have hafter : ∀ l ∈ (splitLines text).drop (k + 1), declaredName l ≠ some name := by
    intro l hl
    obtain ⟨j, hj⟩ := List.mem_iff_getElem?.mp hl
    rw [List.getElem?_drop] at hj
    exact hlast _ l (by omega) hj
  rw [buildLabels, hlines] at h
  rw [LabelTable.lookup_eq_resolve, scanLines_resolve_of_last hname hafter h, Nat.zero_add]

end Sys2Proof.Machine
end

section
/-! The statements about labels and calls (spec/45_labels_and_calls.md). -/

namespace Sys2Proof.Proofs

open Sys2Proof Sys2Proof.Machine Sys2Proof.Claims

/-- Settles O26: by whether the table holds the name. -/
theorem jumpGoesToTheLabel : Obligations.JumpGoesToTheLabel := by
  obtain ⟨-, hjmp, -⟩ := everyByteSelectsItsRow
  exact ⟨hjmp, fun _ _ => ⟨fun _ => exec_jmp_of_resolved, exec_jmp_of_unresolved⟩⟩

/-- Settles O27: the lookup comes first, then the check of the stack, then the push. -/
theorem callPushesTheReturnAddress : Obligations.CallPushesTheReturnAddress := by
  obtain ⟨-, -, hcall, -⟩ := everyByteSelectsItsRow
  refine ⟨hcall, fun l s => ⟨exec_call_of_unresolved, fun t ht => ⟨exec_call_of_full ht, fun hroom hsp => ?_⟩⟩⟩
  refine ⟨_, exec_call_of_resolved ht hroom hsp, s.called_eq l t, ?_, State.keepsBytesBut_called hroom l t⟩
  have hlow : s.sp - 1 = s.sp - 2 + 1 := by omega
  rw [hlow, ← State.toNat_readWord, State.readWord_called, BitVec.toNat_ofNat, lengthOf_call]
  simp only [Nat.add_assoc, Nat.reducePow]

/-- Settles O28: by whether the stack holds an entry. -/
theorem returnPopsTheAddress : Obligations.ReturnPopsTheAddress := by
  obtain ⟨hrows, -⟩ := everyByteSelectsItsRow
  refine ⟨hrows (0x52, .ret) (by decide), fun s => ⟨exec_ret_of_empty, fun hsp => ?_⟩⟩
  rw [exec_ret_of_entry hsp, State.toNat_readWord]
  rfl

/-- Settles O29: the `R` finds the entry of the `C`, since its fetch writes below the stack. -/
theorem returnComesBackAfterTheCall : Obligations.ReturnComesBackAfterTheCall := by
  intro l s t ht hroom hsp hend
  refine ⟨_, _, exec_call_of_resolved ht hroom hsp, exec_ret_after_called hroom hsp hend 0x52, rfl, ?_, ?_⟩
  · rw [State.readByte_setPc, State.readByte_setSp, State.readByte_writeByte, if_pos rfl]
  · have hkeeps : KeepsBytesBut [7, s.sp - 2, s.sp - 1] s (s.called l t) := fun b hb =>
      State.keepsBytesBut_called hroom l t b (List.not_mem_of_not_mem_cons hb)
    exact keepsBytesBut_writeByte hkeeps List.mem_cons_self 0x52

/-- Settles O36: the lines are the pieces of the text between its LF bytes. -/
theorem linesAreSplitAtLf : Obligations.LinesAreSplitAtLf := by
  intro text
  rw [splitLines_eq_splitOn]
  exact ⟨fun _ => not_mem_of_mem_splitOn, List.splitOn_ne_nil _ _, List.intercalate_splitOn _⟩

/-- Settles O37: by whether the line has a colon; what stands before it is trimmed on both sides. -/
theorem labelLineDeclaresItsName : Obligations.LabelLineDeclaresItsName := by
  refine fun line => ⟨declaredName_of_not_mem, ?_⟩
  rintro before after rfl hfirst
  obtain ⟨lead, trail, hsplit, hws, hends⟩ := trimWs_split before
  refine ⟨lead, trimWs before, trail, declaredName_of_first_colon hfirst after, hsplit,
    fun b hb => isWs_iff.mp (hws b hb), fun b hb hmem => ?_⟩
  cases (hends b hb).symm.trans (isWs_iff.mpr hmem)

/-- Settles O38: the rejection counts the names; the table is read off the scan of the lines. -/
theorem labelAddressIsTheAccountedLength : Obligations.LabelAddressIsTheAccountedLength := by
  refine fun cap text => ⟨buildLabels_eq_none, fun lt h => ?_⟩
  obtain ⟨hnd, -⟩ := buildLabels_keys h
  exact ⟨hnd, buildLabels_length h, fun _ => buildLabels_lookup_of_undeclared h,
    fun _ _ _ => buildLabels_lookup_of_last h⟩

end Sys2Proof.Proofs
end

/-! # Exceptions: the fatal faults -/

section
/-! SUPPORT. FAULT has one writer, the fatal fault. -/

namespace Sys2Proof.Machine

open Sys2Proof Sys2Proof.Claims

variable {s t : State} {i : Instr} {k : FaultCode}

/-- FAULT is only ever written by `raise Fault(kind)`, in an instruction that can raise that kind (R35, R263). -/
theorem Effect.fault_writer (h : Effect s i t) (hne : t.fault ≠ s.fault) :
    t = s.raiseFault t.fault ∧ Raises i t.fault := by
  cases h with
  | raise hk => exact ⟨rfl, hk⟩
  | _ => exact absurd rfl hne

/-- What the machine does on a fatal fault is what the statements say of it (R262). -/
theorem State.raiseFault_eq_faulted : s.raiseFault k = faulted s k := rfl

/-- The table of R263, by fault code. -/
theorem Raises.by_code (h : Raises i k) :
    (k = .labelUnresolved ∧ ∃ l, i = .jmp l ∨ i = .call l) ∨
      (k = .bracketUnmatched ∧ (i = .loopOpen ∨ i = .loopClose)) ∨
      (k = .stackOverflow ∧ ∃ l, i = .call l) ∨
      (k = .stackUnderflow ∧ i = .ret) := by
  cases h with
  | jmp l => exact .inl ⟨rfl, l, .inl rfl⟩
  | callUnresolved l => exact .inl ⟨rfl, l, .inr rfl⟩
  | loopOpen => exact .inr (.inl ⟨rfl, .inl rfl⟩)
  | loopClose => exact .inr (.inl ⟨rfl, .inr rfl⟩)
  | callOverflow l => exact .inr (.inr (.inl ⟨rfl, l, rfl⟩))
  | ret => exact .inr (.inr (.inr ⟨rfl, rfl⟩))

end Sys2Proof.Machine
end

section
/-! The statement about fatal faults (spec/60_exceptions.md). -/

namespace Sys2Proof.Proofs

open Sys2Proof Sys2Proof.Machine Sys2Proof.Claims

/-- Settles O31: of all the effects an instruction can have, only the fatal fault writes FAULT. -/
theorem fatalFaultsArePrecise : Obligations.FatalFaultsArePrecise := by
  intro i s t h hne
  obtain ⟨hprecise, hraises⟩ := (exec_effect h).fault_writer hne
  exact ⟨hprecise.trans State.raiseFault_eq_faulted, hraises.by_code⟩

end Sys2Proof.Proofs
end

/-! # Reset: the asserted `rst` and the rejected launch -/

section
/-! SUPPORT. The ports under `rst`, whatever else the state holds (R51, R55 to R57), and what a rejected launch
shows (R292). -/

namespace Sys2Proof.Machine

variable {s : State} {c : LaunchConfig}

@[simp] theorem State.assertRst_rst : s.assertRst.rst = true := rfl

theorem State.haltedPort_of_rst (hrst : s.rst = true) : s.haltedPort = false := by
  simp [State.haltedPort, hrst]

theorem State.faultCodePort_of_rst (hrst : s.rst = true) : s.faultCodePort = 0 := if_pos hrst

theorem State.faultPcPort_of_rst (hrst : s.rst = true) : s.faultPcPort = 0 := if_pos hrst

theorem State.inReq_of_rst (hrst : s.rst = true) : s.inReq = false := by
  simp [State.inReq, hrst]

/-- The read port is valid under `halted` only, which an asserted `rst` holds at 0 (R57, R291). -/
theorem State.memReadPort_of_rst (hrst : s.rst = true) (a : BitVec 16) : s.memReadPort a = none := by
  simp [State.memReadPort, State.haltedPort_of_rst hrst]

/-- A rejected launch is Halted with `rst` released, so the step's gate lets no instruction execute (R34, R292). -/
theorem LaunchConfig.step_rejected : step c.rejected = .fault .halted := step_of_halted rfl rfl

theorem LaunchConfig.faultCodePort_rejected : c.rejected.faultCodePort = 5 := rfl

end Sys2Proof.Machine
end

section
/-! The statements about the rejected launch and the asserted `rst` (spec/70_reset_and_hazards.md). -/

namespace Sys2Proof.Proofs

open Sys2Proof Sys2Proof.Machine Sys2Proof.Claims

/-- Settles O40: the check of R292 decides between the rejected state, which has no step, and the started one. -/
theorem illegalLaunchIsRejected : Obligations.IllegalLaunchIsRejected := by
  refine fun c => ⟨fun h => ?_, fun h => ?_⟩
  · rw [boot_of_mustReject h]
    have hstuck (t : State) : step c.rejected ≠ .next t := by
      rw [LaunchConfig.step_rejected]
      exact nofun
    exact ⟨rfl, rfl, rfl, rfl, rfl, LaunchConfig.faultCodePort_rejected, hstuck⟩
  · obtain ⟨-, labels, -, hboot⟩ := boot_of_not_mustReject h
    rw [hboot]
    rfl

/-- Settles O43: every port and the step look at `rst` first, and the release does not look at the state. -/
theorem assertedResetIdlesThePorts : Obligations.AssertedResetIdlesThePorts := by
  intro s
  have hrst : s.assertRst.rst = true := State.assertRst_rst
  exact ⟨State.haltedPort_of_rst hrst, State.faultCodePort_of_rst hrst, State.faultPcPort_of_rst hrst,
    State.inReq_of_rst hrst, State.memReadPort_of_rst hrst, step_of_rst hrst, fun _ => rfl⟩

end Sys2Proof.Proofs
end
